-- ==== Sys2Proof/Word.lean ====
section
/-! DEFINITION. The word of this hardware: one byte. -/

namespace Sys2Proof

/-- An unsigned 8-bit value; bit 7 is the most significant (00_scope.md, section 5). -/
abbrev Byte := BitVec 8

end Sys2Proof
end

