-- ==== Sys2Proof/Config.lean ====
section
/-! DEFINITION. The build-time parameters of the block (00_scope.md R8) and their validity. Their reference values stand in Sys2Proof/Machine/Parameters.lean. -/

namespace Sys2Proof

/-- The parameters of one instance: fixed at construction, never changed while the block runs (R8). -/
structure Config where
  /-- Largest legal total frame size in bytes, sync through checksum (R8, decision D3). -/
  maxFrameSize : Nat
  /-- The type bytes of the six decoded frame types (R8, R41, decision D5). -/
  tagGps : Byte
  tagVario : Byte
  tagBattery : Byte
  tagBaroAlt : Byte
  tagLinkStats : Byte
  tagAttitude : Byte
  /-- Payload offsets of the four LinkStatistics bytes (R8, R44, decision D7). -/
  lsOffRssi1 : Nat
  lsOffRssi2 : Nat
  lsOffLq : Nat
  lsOffSnr : Nat
deriving DecidableEq, Repr

/-- The six tag parameters, in the order of R8. -/
def Config.tags (c : Config) : List Byte :=
  [c.tagGps, c.tagVario, c.tagBattery, c.tagBaroAlt, c.tagLinkStats, c.tagAttitude]

/-- The four LinkStatistics offsets, in the order of R8. -/
def Config.lsOffsets (c : Config) : List Nat :=
  [c.lsOffRssi1, c.lsOffRssi2, c.lsOffLq, c.lsOffSnr]

/-- What R8 and R44 require of the parameters (the environment's duty, R100 (a)): tags pairwise
distinct, `4 <= MAX_FRAME_SIZE <= 257`, offsets pairwise distinct and each at most
`MAX_FRAME_SIZE - 5`. -/
abbrev Config.Valid (c : Config) : Prop :=
  4 ≤ c.maxFrameSize ∧ c.maxFrameSize ≤ 257 ∧ c.tags.Nodup ∧ c.lsOffsets.Nodup ∧
    ∀ o ∈ c.lsOffsets, o + 5 ≤ c.maxFrameSize

end Sys2Proof
end

