-- ==== Sys2Proof/Machine/Parameters.lean ====
section
/-! DEFINITION. The numbers of this hardware: the reference parameters (00_scope.md R8), the fixed constants, and the eight informative type bytes (30_encoding.md R41). -/

namespace Sys2Proof

/-- The value column of R8. The tags and the LinkStatistics offsets are PRESUMED: the spec supplies
them from general knowledge of the family (log 6, log 7). -/
def Config.reference : Config where
  maxFrameSize := 64
  tagGps := 0x02
  tagVario := 0x07
  tagBattery := 0x08
  tagBaroAlt := 0x09
  tagLinkStats := 0x14
  tagAttitude := 0x1E
  lsOffRssi1 := 0
  lsOffRssi2 := 1
  lsOffLq := 2
  lsOffSnr := 3

/-- `MIN_FRAME_SIZE` of R8: sync, length, type, checksum and no payload. -/
def minFrameSize : Nat := 4

/-- `SYNC` of R8: what a transmitter puts first; the block never examines it (R40). -/
def syncByte : Byte := 0xC8

/-- The informative type bytes of R41 (PRESUMED, log 8): no rule depends on them, since every tag
that is not one of the six decoded tags takes the same path (R42 (a), R81). -/
def tagHeartbeat : Byte := 0x0B
def tagVideoTransmitter : Byte := 0x0F
def tagRcChannelsPacked : Byte := 0x16
def tagFlightMode : Byte := 0x21
def tagDeviceInfo : Byte := 0x29
def tagConfigRead : Byte := 0x2C
def tagConfigWrite : Byte := 0x2D
def tagRadioId : Byte := 0x3A

/-- The eight informative type bytes together. -/
def informativeTags : List Byte :=
  [tagHeartbeat, tagVideoTransmitter, tagRcChannelsPacked, tagFlightMode, tagDeviceInfo,
    tagConfigRead, tagConfigWrite, tagRadioId]

end Sys2Proof
end

