-- ==== Sys2Proof/Syntax.lean ====
section
/-! DEFINITION. The instructions: one constructor per row of spec/opcode_table.json. An instruction is one frame on the wire (00_scope.md, the mapping table); the row is chosen by the type byte (30_encoding.md R41). -/

namespace Sys2Proof

/-- The mnemonics of spec/opcode_table.json, in the table's order. -/
inductive Mnemonic where
  | gps | vario | battery | baroAlt | linkStats | attitude
  | heartbeat | videoTransmitter | rcChannelsPacked | flightMode | deviceInfo
  | configRead | configWrite | radioId
  | unknown
deriving DecidableEq, Repr

/-- One frame. Each constructor carries the bytes the row leaves open: the sync byte (any value,
never examined, R40), the payload bytes (the operand fields, R38) and the checksum byte (R39). The
length byte is no operand: it is `payload length + 2` in every frame (R35). The catch-all row also
carries its type byte (R80). -/
inductive Instr where
  | gps (sync : Byte) (payload : List Byte) (check : Byte)
  | vario (sync : Byte) (payload : List Byte) (check : Byte)
  | battery (sync : Byte) (payload : List Byte) (check : Byte)
  | baroAlt (sync : Byte) (payload : List Byte) (check : Byte)
  | linkStats (sync : Byte) (payload : List Byte) (check : Byte)
  | attitude (sync : Byte) (payload : List Byte) (check : Byte)
  | heartbeat (sync : Byte) (payload : List Byte) (check : Byte)
  | videoTransmitter (sync : Byte) (payload : List Byte) (check : Byte)
  | rcChannelsPacked (sync : Byte) (payload : List Byte) (check : Byte)
  | flightMode (sync : Byte) (payload : List Byte) (check : Byte)
  | deviceInfo (sync : Byte) (payload : List Byte) (check : Byte)
  | configRead (sync : Byte) (payload : List Byte) (check : Byte)
  | configWrite (sync : Byte) (payload : List Byte) (check : Byte)
  | radioId (sync : Byte) (payload : List Byte) (check : Byte)
  | unknown (sync : Byte) (tag : Byte) (payload : List Byte) (check : Byte)
deriving DecidableEq, Repr

/-- The row an instruction belongs to. -/
def Instr.mnemonic : Instr → Mnemonic
  | .gps _ _ _ => .gps
  | .vario _ _ _ => .vario
  | .battery _ _ _ => .battery
  | .baroAlt _ _ _ => .baroAlt
  | .linkStats _ _ _ => .linkStats
  | .attitude _ _ _ => .attitude
  | .heartbeat _ _ _ => .heartbeat
  | .videoTransmitter _ _ _ => .videoTransmitter
  | .rcChannelsPacked _ _ _ => .rcChannelsPacked
  | .flightMode _ _ _ => .flightMode
  | .deviceInfo _ _ _ => .deviceInfo
  | .configRead _ _ _ => .configRead
  | .configWrite _ _ _ => .configWrite
  | .radioId _ _ _ => .radioId
  | .unknown _ _ _ _ => .unknown

/-- The sync byte of the frame (R34, offset 0). -/
def Instr.sync : Instr → Byte
  | .gps y _ _ | .vario y _ _ | .battery y _ _ | .baroAlt y _ _ | .linkStats y _ _
  | .attitude y _ _ | .heartbeat y _ _ | .videoTransmitter y _ _ | .rcChannelsPacked y _ _
  | .flightMode y _ _ | .deviceInfo y _ _ | .configRead y _ _ | .configWrite y _ _
  | .radioId y _ _ | .unknown y _ _ _ => y

/-- The payload bytes of the frame (R38). -/
def Instr.payload : Instr → List Byte
  | .gps _ p _ | .vario _ p _ | .battery _ p _ | .baroAlt _ p _ | .linkStats _ p _
  | .attitude _ p _ | .heartbeat _ p _ | .videoTransmitter _ p _ | .rcChannelsPacked _ p _
  | .flightMode _ p _ | .deviceInfo _ p _ | .configRead _ p _ | .configWrite _ p _
  | .radioId _ p _ | .unknown _ _ p _ => p

/-- The checksum byte of the frame (R39). -/
def Instr.check : Instr → Byte
  | .gps _ _ k | .vario _ _ k | .battery _ _ k | .baroAlt _ _ k | .linkStats _ _ k
  | .attitude _ _ k | .heartbeat _ _ k | .videoTransmitter _ _ k | .rcChannelsPacked _ _ k
  | .flightMode _ _ k | .deviceInfo _ _ k | .configRead _ _ k | .configWrite _ _ k
  | .radioId _ _ k | .unknown _ _ _ k => k

/-- One row of spec/opcode_table.json as R46 describes it: `pattern` and `mask` are over the header
`sync*65536 + L*256 + tag`, and a frame selects the row when `header & mask = pattern`. -/
structure Row where
  mnemonic : Mnemonic
  pattern : BitVec 24
  mask : BitVec 24
  reqLen : Nat
deriving DecidableEq, Repr

end Sys2Proof
end

