-- ==== Sys2Proof/WellFormed.lean ====
section
/-! DEFINITION. Which instructions have an encoding. -/

namespace Sys2Proof

/-- A payload fits a legal frame: `0 <= plen <= MAX_FRAME_SIZE - 4` (R38, with R36). -/
def payloadFits (c : Config) (payload : List Byte) : Bool :=
  decide (payload.length + minFrameSize ≤ c.maxFrameSize)

/-- A type byte without a decoder: none of the six tag parameters (R42 (a), R80). -/
def undecodedTag (c : Config) (tag : Byte) : Bool :=
  !c.tags.contains tag

/-- A type byte that the catch-all row takes: no earlier row of the table matches it (R46). -/
def catchAllTag (c : Config) (tag : Byte) : Bool :=
  undecodedTag c tag && !informativeTags.contains tag

/-- Legal at the framing layer, and standing in the row that the table's order gives its type byte
(R46). The checksum byte is free: a mismatch is an outcome of the instruction, no ill-formed frame
(R42 (d)). -/
def WellFormed (c : Config) : Instr → Bool
  | .gps _ p _ => payloadFits c p
  | .vario _ p _ => payloadFits c p
  | .battery _ p _ => payloadFits c p
  | .baroAlt _ p _ => payloadFits c p
  | .linkStats _ p _ => payloadFits c p
  | .attitude _ p _ => payloadFits c p
  | .heartbeat _ p _ => payloadFits c p && undecodedTag c tagHeartbeat
  | .videoTransmitter _ p _ => payloadFits c p && undecodedTag c tagVideoTransmitter
  | .rcChannelsPacked _ p _ => payloadFits c p && undecodedTag c tagRcChannelsPacked
  | .flightMode _ p _ => payloadFits c p && undecodedTag c tagFlightMode
  | .deviceInfo _ p _ => payloadFits c p && undecodedTag c tagDeviceInfo
  | .configRead _ p _ => payloadFits c p && undecodedTag c tagConfigRead
  | .configWrite _ p _ => payloadFits c p && undecodedTag c tagConfigWrite
  | .radioId _ p _ => payloadFits c p && undecodedTag c tagRadioId
  | .unknown _ t p _ => payloadFits c p && catchAllTag c t

end Sys2Proof
end

