-- ==== Sys2Proof/Decode.lean ====
section
/-! DEFINITION. From bytes to an instruction, total on any bytes, rejecting by name; and the encoder. -/

namespace Sys2Proof

/-! ## The length prefix -/

/-- `E = expected_len = L + 2`, formed without wrap-around (R35, R12, decision D20). -/
def expectedLen (len : Byte) : Nat := len.toNat + 2

/-- A total size is legal when `4 <= E <= MAX_FRAME_SIZE` (R36). -/
def legalSize (c : Config) (e : Nat) : Bool :=
  decide (minFrameSize ≤ e) && decide (e ≤ c.maxFrameSize)

/-- What the reassembler decides from the byte count and `buf[1]` alone (R54), its tests in the
order of R57 and R91. -/
inductive Boundary where
  /-- Step 1, R58: fewer than two bytes. -/
  | needHeader
  /-- Step 3, R59: the length is out of range. -/
  | desync
  /-- Step 4, R60: the length is legal and bytes are missing. -/
  | needBody
  /-- Step 5, R61: a whole frame of this size stands at the front. -/
  | extract (size : Nat)
deriving DecidableEq, Repr

/-- The decision of one drain iteration (R57). -/
def boundary (c : Config) (buf : List Byte) : Boundary :=
  match buf with
  | _ :: len :: _ =>
    if legalSize c (expectedLen len) then
      if buf.length < expectedLen len then .needBody else .extract (expectedLen len)
    else .desync
  | _ => .needHeader

/-! ## Dispatch on the type byte -/

/-- The row of a type byte: the six tag parameters first (R41, R68), then the eight informative
tags, then the catch-all (R46: the first match is taken). -/
def rowOfTag (c : Config) (tag : Byte) : Mnemonic :=
  if tag = c.tagGps then .gps
  else if tag = c.tagVario then .vario
  else if tag = c.tagBattery then .battery
  else if tag = c.tagBaroAlt then .baroAlt
  else if tag = c.tagLinkStats then .linkStats
  else if tag = c.tagAttitude then .attitude
  else if tag = tagHeartbeat then .heartbeat
  else if tag = tagVideoTransmitter then .videoTransmitter
  else if tag = tagRcChannelsPacked then .rcChannelsPacked
  else if tag = tagFlightMode then .flightMode
  else if tag = tagDeviceInfo then .deviceInfo
  else if tag = tagConfigRead then .configRead
  else if tag = tagConfigWrite then .configWrite
  else if tag = tagRadioId then .radioId
  else .unknown

/-- The instruction of a row with these bytes. -/
def Instr.ofRow (row : Mnemonic) (sync tag : Byte) (payload : List Byte) (check : Byte) : Instr :=
  match row with
  | .gps => .gps sync payload check
  | .vario => .vario sync payload check
  | .battery => .battery sync payload check
  | .baroAlt => .baroAlt sync payload check
  | .linkStats => .linkStats sync payload check
  | .attitude => .attitude sync payload check
  | .heartbeat => .heartbeat sync payload check
  | .videoTransmitter => .videoTransmitter sync payload check
  | .rcChannelsPacked => .rcChannelsPacked sync payload check
  | .flightMode => .flightMode sync payload check
  | .deviceInfo => .deviceInfo sync payload check
  | .configRead => .configRead sync payload check
  | .configWrite => .configWrite sync payload check
  | .radioId => .radioId sync payload check
  | .unknown => .unknown sync tag payload check

/-- The instruction a frame's bytes stand for (R41). -/
def dispatch (c : Config) (sync tag : Byte) (payload : List Byte) (check : Byte) : Instr :=
  .ofRow (rowOfTag c tag) sync tag payload check

/-- The decoder's answers: a rejection by name, or an instruction and the bytes behind it. -/
inductive Decoded where
  /-- Fewer than two bytes: the length is not known (R45, R58). -/
  | needHeader
  /-- The one encoding the framing layer rejects (R42 (c), R36). -/
  | illegalLength
  /-- The frame is not all there (R60). -/
  | needBody
  /-- A whole frame, and what follows it. -/
  | instr (i : Instr) (rest : List Byte)
deriving DecidableEq, Repr

/-- Decode the frame at the front of a byte sequence (R34, R45). -/
def decode (c : Config) (bytes : List Byte) : Decoded :=
  match boundary c bytes with
  | .needHeader => .needHeader
  | .desync => .illegalLength
  | .needBody => .needBody
  | .extract e =>
    match bytes with
    | sync :: _ :: tag :: body =>
      .instr (dispatch c sync tag (body.take (e - 4)) (body.getD (e - 4) 0)) (body.drop (e - 3))
    | _ => .needBody -- not reached: a legal size is at least 4

/-! ## The encoder -/

/-- The frame format of R34, the length byte being `|payload| + 2` (R35). -/
def frameBytes (sync tag : Byte) (payload : List Byte) (check : Byte) : List Byte :=
  [sync, BitVec.ofNat 8 (payload.length + 2), tag] ++ payload ++ [check]

/-- The type byte of an instruction (R41; R80 for the catch-all). -/
def Instr.tag (c : Config) : Instr → Byte
  | .gps _ _ _ => c.tagGps
  | .vario _ _ _ => c.tagVario
  | .battery _ _ _ => c.tagBattery
  | .baroAlt _ _ _ => c.tagBaroAlt
  | .linkStats _ _ _ => c.tagLinkStats
  | .attitude _ _ _ => c.tagAttitude
  | .heartbeat _ _ _ => tagHeartbeat
  | .videoTransmitter _ _ _ => tagVideoTransmitter
  | .rcChannelsPacked _ _ _ => tagRcChannelsPacked
  | .flightMode _ _ _ => tagFlightMode
  | .deviceInfo _ _ _ => tagDeviceInfo
  | .configRead _ _ _ => tagConfigRead
  | .configWrite _ _ _ => tagConfigWrite
  | .radioId _ _ _ => tagRadioId
  | .unknown _ t _ _ => t

/-- The bytes of an instruction, in wire order. -/
def encode (c : Config) (i : Instr) : List Byte :=
  frameBytes i.sync (i.tag c) i.payload i.check

/-- `mkframe_sync(s, tag, payload)` of R47: the frame with its correct checksum. -/
def mkframeSync (sync tag : Byte) (payload : List Byte) : List Byte :=
  frameBytes sync tag payload (crc8 (tag :: payload))

/-- `mkframe(tag, payload)` of R47. -/
def mkframe (tag : Byte) (payload : List Byte) : List Byte :=
  mkframeSync syncByte tag payload

/-! ## The machine-readable table (R46) -/

/-- `req` of each row (R44, R68): one more than the highest payload offset any field reaches
(decision D8); a row without a decoder requires nothing (R80). -/
def requiredLen (c : Config) : Mnemonic → Nat
  | .gps => 15
  | .vario => 2
  | .battery => 8
  | .baroAlt => 4
  | .linkStats => 1 + max (max c.lsOffRssi1 c.lsOffRssi2) (max c.lsOffLq c.lsOffSnr)
  | .attitude => 6
  | .heartbeat | .videoTransmitter | .rcChannelsPacked | .flightMode | .deviceInfo
  | .configRead | .configWrite | .radioId | .unknown => 0

/-- spec/opcode_table.json, row by row (reference parameters). -/
def opcodeTable : List Row :=
  [ ⟨.gps, 0x000002, 0x0000FF, 15⟩, ⟨.vario, 0x000007, 0x0000FF, 2⟩,
    ⟨.battery, 0x000008, 0x0000FF, 8⟩, ⟨.baroAlt, 0x000009, 0x0000FF, 4⟩,
    ⟨.linkStats, 0x000014, 0x0000FF, 4⟩, ⟨.attitude, 0x00001E, 0x0000FF, 6⟩ ] ++
  [ ⟨.heartbeat, 0x00000B, 0x0000FF, 0⟩, ⟨.videoTransmitter, 0x00000F, 0x0000FF, 0⟩,
    ⟨.rcChannelsPacked, 0x000016, 0x0000FF, 0⟩, ⟨.flightMode, 0x000021, 0x0000FF, 0⟩,
    ⟨.deviceInfo, 0x000029, 0x0000FF, 0⟩, ⟨.configRead, 0x00002C, 0x0000FF, 0⟩,
    ⟨.configWrite, 0x00002D, 0x0000FF, 0⟩, ⟨.radioId, 0x00003A, 0x0000FF, 0⟩ ] ++
  [ ⟨.unknown, 0x000000, 0x000000, 0⟩ ]

/-- The three header bytes as the table takes them: `sync*65536 + L*256 + tag` (R46). -/
def headerBits (sync len tag : Byte) : BitVec 24 := sync ++ len ++ tag

/-- The first row of the table that a header matches (R46). -/
def selectRow (header : BitVec 24) : Option Row :=
  opcodeTable.find? fun r => header &&& r.mask == r.pattern

/-! ## A table word as a frame -/

/-- The frame that a word of the opcode table stands for. The word is numbered as the table numbers
it: type byte in bits 7..0, length in bits 15..8, sync in bits 23..16 (R46); bits above 23, where
the word has any, are payload bytes in order, and the rest of the payload is zero. The table's rows
fix the type byte alone, so a word may leave its length byte at a value that no frame has; the frame
then gets the row's required payload length (or what fits). The checksum byte, which the table does
not number, is the one that makes the frame well formed (R39). DESIGN CHOICE, log 10. -/
def tableFrame (c : Config) (nbits w : Nat) : List Byte :=
  let v := w % 2 ^ nbits
  let tag := BitVec.ofNat 8 v
  let len := BitVec.ofNat 8 (v / 2 ^ 8)
  let sync := BitVec.ofNat 8 (v / 2 ^ 16)
  let req := requiredLen c (rowOfTag c tag)
  let n := if legalSize c (expectedLen len) then len.toNat - 2 else min req (c.maxFrameSize - 4)
  mkframeSync sync tag ((List.range n).map fun k => BitVec.ofNat 8 (v / 2 ^ (24 + 8 * k)))

/-- The instruction the decoder reads from an instruction whose bits are `w`, numbered as
spec/opcode_table.json numbers them, at the reference parameters. -/
def decodeTableWord (nbits w : Nat) : Option Instr :=
  match decode Config.reference (tableFrame Config.reference nbits w) with
  | .instr i _ => some i
  | _ => none

end Sys2Proof
end

