-- ==== Sys2Proof/Machine/State.lean ====
section
/-! DEFINITION. The state of the machine as plain data, its events, the reasons a step can stop, and the state after reset. -/

namespace Sys2Proof.Machine

/-! ## Records and events -/

/-- A scaled field of a record: the exact rational `raw / den`, `den` the fixed constant of its
layout; the division is not performed in the block (R73, decision D10). -/
structure Scaled where
  raw : Int
  den : Nat
deriving DecidableEq, Repr

/-- The variant and fields of a decoded record (R18; R74 to R79; names by decision D18). -/
inductive Record where
  | gps (latitudeDeg longitudeDeg groundSpeedMps heading : Scaled) (altitudeM : Int)
      (satellites : Nat)
  | vario (verticalSpeedMps : Scaled)
  | battery (voltageV currentA : Scaled) (consumedMah percent : Nat)
  | baroAlt (altitudeM : Scaled)
  | linkStatistics (rssi1 rssi2 : Int) (linkQuality : Nat) (snr : Int)
  | attitude (pitch roll yaw : Scaled)
deriving DecidableEq, Repr

/-- The five kinds of event and their content; there is no sixth (R18, R83). -/
inductive Event where
  /-- Code 0, R89. -/
  | decodedRecord (tag : Byte) (record : Record)
  /-- Code 1, R88; not an error. -/
  | unknownType (tag : Byte) (rawFrame : List Byte)
  /-- Code 2, R86. -/
  | checksumError (rawFrame : List Byte)
  /-- Code 3, R87. -/
  | truncatedPayload (tag : Byte) (rawFrame : List Byte)
  /-- Code 4, R85; `count` is the number of bytes discarded (decision D12). -/
  | desyncDiscard (count : Nat)
deriving DecidableEq, Repr

/-! ## Control and the environment's moves -/

/-- The control point of the reassembler, with the three labels R15 gives a model that implements
the drain loop as micro-steps. -/
inductive Control where
  /-- Steps 1, 2 and 4: waiting for bytes, or about to test the header. -/
  | accumulating
  /-- Step 5: a candidate frame is captured and its event is not yet produced. -/
  | extracting
  /-- Step 3: an implausible length was found and the buffer is about to be discarded. -/
  | desync
deriving DecidableEq, Repr

/-- A move of the environment: a chunk of the byte source (R16, R56), or `RESET` (R98). -/
inductive Input where
  | feed (chunk : List Byte)
  | reset
deriving DecidableEq, Repr

/-! ## Reasons to stop -/

/-- Why the machine stops with a fault. No input makes this block fault (R6); the one reason is the
model's own. -/
inductive Fault where
  /-- Raised by `step` alone, when the control point is EXTRACTING and the frame register does not
  hold one whole legal frame. R11 and R61 rule that state out and no run reaches it. Safe: the spec
  gives such a state no meaning (log 11). -/
  | noCandidateFrame
deriving DecidableEq, Repr

/-- Why the model declines an instruction. -/
inductive Refusal where
  /-- An instruction without a meaning yet; raised by `exec`'s arm alone, safe. No arm of this model
  raises it. -/
  | notModelled (mnemonic : String)
deriving DecidableEq, Repr

/-! ## The state -/

/-- Everything the spec gives the machine (R10 to R19), with the environment's two queues. -/
@[ext]
structure State where
  /-- The parameters of the instance: constants, written by no step (R8, R14). -/
  cfg : Config
  /-- The frame buffer, front first: the only state that survives a FEED (R10). -/
  buf : List Byte
  /-- Ghost: the number of stream bytes that have left the front of `buf` since reset (R13). -/
  pos : Nat
  /-- The control point (R15). -/
  control : Control
  /-- The captured candidate frame `F`, from its removal to its event (R11). -/
  frame : Option (List Byte)
  /-- The event list of the FEED that is running (R56, R84). -/
  events : List Event
  /-- The environment's moves not yet taken, next first (R16, R98; log 2). -/
  input : List Input
  /-- What the record sink has received, oldest first (R17; log 3). -/
  sink : List Event
deriving DecidableEq, Repr

/-- The state after reset (R19): the reference parameters, an empty buffer, position 0, nothing
captured, nothing pending, ACCUMULATING. -/
def State.reset : State where
  cfg := Config.reference
  buf := []
  pos := 0
  control := .accumulating
  frame := none
  events := []
  input := []
  sink := []

end Sys2Proof.Machine
end

