-- ==== Sys2Proof/Machine/Operands.lean ====
section
/-! DEFINITION. Operand reads: the payload region, MemRead and its named forms (20_memory.md R22 to R25), and the numbers of R73. -/

namespace Sys2Proof.Machine

/-- `plen(F) = |F| - 4` when `|F| >= 4`, else 0 (R24, R69): taken from the size of the slice, never
from the length byte (R72). -/
def plen (F : List Byte) : Nat := F.length - 4

/-- The payload region `P = F[3 .. |F|-1)` (R69). -/
def payloadOf (F : List Byte) : List Byte := (F.drop 3).dropLast

/-- The unsigned value of bytes, most significant first (R22). -/
def bigEndian (bytes : List Byte) : Nat :=
  bytes.foldl (fun v b => v * 256 + b.toNat) 0

/-- `sext_N` of 00_scope.md section 5: an N-bit pattern read as two's complement. -/
def sext (n v : Nat) : Int :=
  if v < 2 ^ (n - 1) then v else (v : Int) - 2 ^ n

/-- `MemRead(F, o, k)` of R24, with its bounds check as an optional result: none when the read
would leave the payload region (the checksum byte is outside it, decision D9). -/
def memRead (F : List Byte) (o k : Nat) : Option Nat :=
  if o + k ≤ plen F then some (bigEndian ((F.drop (3 + o)).take k)) else none

/-- The named read forms of R25. -/
def rdU8 (F : List Byte) (o : Nat) : Option Nat := memRead F o 1
def rdI8 (F : List Byte) (o : Nat) : Option Int := (memRead F o 1).map (sext 8)
def rdI16 (F : List Byte) (o : Nat) : Option Int := (memRead F o 2).map (sext 16)
def rdU24 (F : List Byte) (o : Nat) : Option Nat := memRead F o 3
def rdI32 (F : List Byte) (o : Nat) : Option Int := (memRead F o 4).map (sext 32)

/-- The exact rational a scaled field stands for (R73). -/
def Scaled.value (x : Scaled) : Rat := (x.raw : Rat) / (x.den : Rat)

end Sys2Proof.Machine
end

