-- ==== Sys2Proof/Machine/Flags.lean ====
section
/-! DEFINITION. The verdicts. The block keeps no flags (10_state.md R14): each test's outcome is used at once and dropped. The length test is `legalSize` in Decode.lean. -/

namespace Sys2Proof.Machine

/-- The covered range `F[2 .. |F|-1)`: type byte and payload (R39, R65). -/
def coveredRange (F : List Byte) : List Byte := (F.drop 2).dropLast

/-- `VALIDATE(F)` of R65: the checksum of the covered range equals the last byte. A match is the
success path (R67). -/
def validate (F : List Byte) : Bool :=
  crc8 (coveredRange F) == F.getLastD 0

/-- The truncation check of R70. -/
def truncated (req : Nat) (F : List Byte) : Bool :=
  decide (plen F < req)

end Sys2Proof.Machine
end

