-- ==== Sys2Proof/Machine/Decoder.lean ====
section
/-! DEFINITION. The payload decoder (43_decoder.md): the six fixed-format decoders and DECODE over raw slices. -/

namespace Sys2Proof.Machine

/-- Decoder GPS (R74, layout R44). -/
def gpsRecord (F : List Byte) : Option Record := do
  let lat ← rdI32 F 0
  let lon ← rdI32 F 4
  let gs ← rdI16 F 8
  let hdg ← rdI16 F 10
  let alt ← rdI16 F 12
  let sats ← rdU8 F 14
  return .gps ⟨lat, 10000000⟩ ⟨lon, 10000000⟩ ⟨gs, 36⟩ ⟨hdg, 100⟩ (alt - 1000) sats

/-- Decoder VARIO (R75). -/
def varioRecord (F : List Byte) : Option Record := do
  let vs ← rdI16 F 0
  return .vario ⟨vs, 10⟩

/-- Decoder BATTERY (R76). -/
def batteryRecord (F : List Byte) : Option Record := do
  let v ← rdI16 F 0
  let a ← rdI16 F 2
  let mah ← rdU24 F 4
  let pct ← rdU8 F 7
  return .battery ⟨v, 10⟩ ⟨a, 10⟩ mah pct

/-- Decoder BAROALT (R77). -/
def baroAltRecord (F : List Byte) : Option Record := do
  let alt ← rdI32 F 0
  return .baroAlt ⟨alt, 100⟩

/-- Decoder LINKSTATS (R78), at the offset parameters. -/
def linkStatsRecord (c : Config) (F : List Byte) : Option Record := do
  let rssi1 ← rdI8 F c.lsOffRssi1
  let rssi2 ← rdI8 F c.lsOffRssi2
  let lq ← rdU8 F c.lsOffLq
  let snr ← rdI8 F c.lsOffSnr
  return .linkStatistics rssi1 rssi2 lq snr

/-- Decoder ATTITUDE (R79). -/
def attitudeRecord (F : List Byte) : Option Record := do
  let p ← rdI16 F 0
  let r ← rdI16 F 2
  let y ← rdI16 F 4
  return .attitude ⟨p, 10000⟩ ⟨r, 10000⟩ ⟨y, 10000⟩

/-- The event of a decoded type: the truncation check once, before any field is read, then the
record (R68, R70). A read out of bounds, which the check rules out, would be the same outcome
(R24). -/
def decodedEvent (req : Nat) (record : Option Record) (tag : Byte) (F : List Byte) : Event :=
  if truncated req F then .truncatedPayload tag F
  else
    match record with
    | some r => .decodedRecord tag r
    | none => .truncatedPayload tag F

/-- `DECODE(tag, F)` of R68, for every byte sequence `F` (R72). -/
def decodeEvent (c : Config) (tag : Byte) (F : List Byte) : Event :=
  if tag = c.tagGps then decodedEvent (requiredLen c .gps) (gpsRecord F) tag F
  else if tag = c.tagVario then decodedEvent (requiredLen c .vario) (varioRecord F) tag F
  else if tag = c.tagBattery then decodedEvent (requiredLen c .battery) (batteryRecord F) tag F
  else if tag = c.tagBaroAlt then decodedEvent (requiredLen c .baroAlt) (baroAltRecord F) tag F
  else if tag = c.tagLinkStats then
    decodedEvent (requiredLen c .linkStats) (linkStatsRecord c F) tag F
  else if tag = c.tagAttitude then decodedEvent (requiredLen c .attitude) (attitudeRecord F) tag F
  else .unknownType tag F

end Sys2Proof.Machine
end

