-- ==== Sys2Proof/Machine/Ops.lean ====
section
/-! DEFINITION. The named operations over the state: raising an event, the append and the two removals of the buffer, RESET, the hand-over to the sink, and the reads. -/

namespace Sys2Proof.Machine

/-! ## Reads -/

/-- The stream byte at address `a`, while it is in the buffer: stream byte `pos + i` is `buf[i]`
(R13, R20). A byte not yet arrived or already gone reads as nothing. -/
def State.streamByte (s : State) (a : Nat) : Option Byte :=
  if s.pos ≤ a then s.buf[a - s.pos]? else none

/-- The buffer as cells of the stream's address space (R20). -/
def State.cells (s : State) : List Host.Cell :=
  s.buf.mapIdx fun i b => (s.pos + i, b)

/-- Canonical form of a list of cells: addresses strictly rising. An unlisted address reads as
nothing, so no entry can equal what it reads as. -/
def Memory.wf (m : List Host.Cell) : Bool :=
  decide (m.Pairwise fun x y => x.1 < y.1)

/-! ## Taking an exception: raise -/

/-- `raise K(info)` of R84, the one operation by which every outcome is reported: append one event
to the list of the running FEED and end the handling of the thing it reports. Nothing is saved and
nothing is switched (R92); there is no return, control goes on with the drain loop (R93). -/
def State.raise (s : State) (e : Event) : State :=
  { s with events := s.events ++ [e], frame := none, control := .accumulating }

/-- The numeric kind codes of R18 (decision D11). -/
def Event.kind : Event → BitVec 3
  | .decodedRecord _ _ => 0
  | .unknownType _ _ => 1
  | .checksumError _ => 2
  | .truncatedPayload _ _ => 3
  | .desyncDiscard _ => 4

/-! ## The three operations that change the buffer (R10), and RESET -/

/-- The append of R28 and R56: `buf <- buf ++ chunk`. -/
def State.append (s : State) (chunk : List Byte) : State :=
  { s with buf := s.buf ++ chunk }

/-- EXTRACT's removal (R61): `F <- buf[0 .. E)`, `buf <- buf[E .. |buf|)`, `pos <- pos + E`. -/
def State.capture (s : State) (e : Nat) : State :=
  { s with
    buf := s.buf.drop e
    pos := s.pos + e
    frame := some (s.buf.take e)
    control := .extracting }

/-- DESYNC's action (R59): report the number of buffered bytes and discard them all. -/
def State.discard (s : State) : State :=
  State.raise { s with pos := s.pos + s.buf.length, buf := [] } (.desyncDiscard s.buf.length)

/-- `RESET` (R98, R19): empty buffer, position 0, nothing captured, nothing pending; no event is
raised. The parameters keep their values (R99); the environment's queues are not the block's. -/
def State.doReset (s : State) : State :=
  { s with buf := [], pos := 0, control := .accumulating, frame := none, events := [] }

/-! ## Between FEEDs -/

/-- A FEED returns: its event list goes to the record sink, in order (R17, R29 (d), R107). -/
def State.handOver (s : State) : State :=
  { s with sink := s.sink ++ s.events, events := [] }

/-- The next move of the environment: a chunk is appended (R56), or RESET is done (R98). Without a
move the block waits (R97 (e), R99). -/
def State.acceptInput (s : State) : State :=
  match s.input with
  | [] => s
  | .feed chunk :: rest => State.append { s with input := rest } chunk
  | .reset :: rest => State.doReset { s with input := rest }

/-- The drain loop has stopped (R58, R60): hand over what the FEED raised; with nothing pending,
take the next move. A FEED is therefore finished before the next begins (R29 (b), R101). -/
def State.endPass (s : State) : State :=
  if s.events = [] then s.acceptInput else s.handOver

/-- One step at the control point ACCUMULATING: the tests of R57 in their order. -/
def State.accumulate (s : State) : State :=
  match boundary s.cfg s.buf with
  | .needHeader => s.endPass
  | .desync => { s with control := .desync }
  | .needBody => s.endPass
  | .extract e => s.capture e

/-- The instruction in the frame register: one whole frame and nothing behind it (R11, R61). -/
def State.fetch (s : State) : Option Instr :=
  match s.frame with
  | none => none
  | some F =>
    match decode s.cfg F with
    | .instr i [] => some i
    | _ => none

end Sys2Proof.Machine
end

