-- ==== Sys2Proof/Machine/Validator.lean ====
section
/-! DEFINITION. The frame validator (42_validator.md): PROCESS over raw frames, and the shared shape of every instruction's meaning. -/

namespace Sys2Proof.Machine

/-- The event of a frame whose decoder would give `outcome`: a checksum mismatch is reported instead
and decoding is skipped (R64, R66). -/
def validatedEvent (F : List Byte) (outcome : Event) : Event :=
  if validate F then outcome else .checksumError F

/-- `PROCESS(F)` of R64, for `4 <= |F|`; the type byte is `F[2]`. -/
def processEvent (c : Config) (F : List Byte) : Event :=
  validatedEvent F (decodeEvent c (F.getD 2 0) F)

/-- A frame's one event is raised (R64, R84). -/
def finishFrame (F : List Byte) (outcome : Event) (s : State) :
    Host.Outcome State Fault Refusal :=
  .next (s.raise (validatedEvent F outcome))

/-- The shape of the six decoded types: validate, then truncation check and record (R64, R68). -/
def runDecoded (row : Mnemonic) (record : List Byte → Option Record) (sync tag : Byte)
    (payload : List Byte) (check : Byte) (s : State) : Host.Outcome State Fault Refusal :=
  let F := frameBytes sync tag payload check
  finishFrame F (decodedEvent (requiredLen s.cfg row) (record F) tag F) s

/-- The shape of every type without a decoder: validate, then UnknownType (R80, R81). -/
def runUndecoded (sync tag : Byte) (payload : List Byte) (check : Byte) (s : State) :
    Host.Outcome State Fault Refusal :=
  let F := frameBytes sync tag payload check
  finishFrame F (.unknownType tag F) s

end Sys2Proof.Machine
end

