-- ==== Sys2Proof/Machine/Telemetry.lean ====
section
/-! DEFINITION. The meanings of the six decoded frame types (43_decoder.md R74 to R79). -/

namespace Sys2Proof.Machine

/-- GPS (R74). -/
def execGps (sync : Byte) (payload : List Byte) (check : Byte) (s : State) :
    Host.Outcome State Fault Refusal :=
  runDecoded .gps gpsRecord sync s.cfg.tagGps payload check s

/-- VARIO (R75). -/
def execVario (sync : Byte) (payload : List Byte) (check : Byte) (s : State) :
    Host.Outcome State Fault Refusal :=
  runDecoded .vario varioRecord sync s.cfg.tagVario payload check s

/-- BATTERY (R76). -/
def execBattery (sync : Byte) (payload : List Byte) (check : Byte) (s : State) :
    Host.Outcome State Fault Refusal :=
  runDecoded .battery batteryRecord sync s.cfg.tagBattery payload check s

/-- BAROALT (R77). -/
def execBaroAlt (sync : Byte) (payload : List Byte) (check : Byte) (s : State) :
    Host.Outcome State Fault Refusal :=
  runDecoded .baroAlt baroAltRecord sync s.cfg.tagBaroAlt payload check s

/-- LINKSTATS (R78). -/
def execLinkStats (sync : Byte) (payload : List Byte) (check : Byte) (s : State) :
    Host.Outcome State Fault Refusal :=
  runDecoded .linkStats (linkStatsRecord s.cfg) sync s.cfg.tagLinkStats payload check s

/-- ATTITUDE (R79). -/
def execAttitude (sync : Byte) (payload : List Byte) (check : Byte) (s : State) :
    Host.Outcome State Fault Refusal :=
  runDecoded .attitude attitudeRecord sync s.cfg.tagAttitude payload check s

end Sys2Proof.Machine
end

