-- ==== Sys2Proof/Machine/Undecoded.lean ====
section
/-! DEFINITION. The meanings of the frame types without a decoder: the eight named ones (43_decoder.md R81) and the catch-all (R80). -/

namespace Sys2Proof.Machine

/-- HEARTBEAT (R81): no decoder, the unknown-type outcome with its own tag. -/
def execHeartbeat (sync : Byte) (payload : List Byte) (check : Byte) (s : State) :
    Host.Outcome State Fault Refusal :=
  runUndecoded sync tagHeartbeat payload check s

/-- VIDEO_TRANSMITTER (R81): no decoder, the unknown-type outcome with its own tag. -/
def execVideoTransmitter (sync : Byte) (payload : List Byte) (check : Byte) (s : State) :
    Host.Outcome State Fault Refusal :=
  runUndecoded sync tagVideoTransmitter payload check s

/-- RC_CHANNELS_PACKED (R81): no decoder, the unknown-type outcome with its own tag. -/
def execRcChannelsPacked (sync : Byte) (payload : List Byte) (check : Byte) (s : State) :
    Host.Outcome State Fault Refusal :=
  runUndecoded sync tagRcChannelsPacked payload check s

/-- FLIGHT_MODE (R81): no decoder, the unknown-type outcome with its own tag. -/
def execFlightMode (sync : Byte) (payload : List Byte) (check : Byte) (s : State) :
    Host.Outcome State Fault Refusal :=
  runUndecoded sync tagFlightMode payload check s

/-- DEVICE_INFO (R81): no decoder, the unknown-type outcome with its own tag. -/
def execDeviceInfo (sync : Byte) (payload : List Byte) (check : Byte) (s : State) :
    Host.Outcome State Fault Refusal :=
  runUndecoded sync tagDeviceInfo payload check s

/-- CONFIG_READ (R81): no decoder, the unknown-type outcome with its own tag. -/
def execConfigRead (sync : Byte) (payload : List Byte) (check : Byte) (s : State) :
    Host.Outcome State Fault Refusal :=
  runUndecoded sync tagConfigRead payload check s

/-- CONFIG_WRITE (R81): no decoder, the unknown-type outcome with its own tag. -/
def execConfigWrite (sync : Byte) (payload : List Byte) (check : Byte) (s : State) :
    Host.Outcome State Fault Refusal :=
  runUndecoded sync tagConfigWrite payload check s

/-- RADIO_ID (R81): no decoder, the unknown-type outcome with its own tag. -/
def execRadioId (sync : Byte) (payload : List Byte) (check : Byte) (s : State) :
    Host.Outcome State Fault Refusal :=
  runUndecoded sync tagRadioId payload check s

/-- UNKNOWN (R80): every other tag. -/
def execUnknown (sync tag : Byte) (payload : List Byte) (check : Byte) (s : State) :
    Host.Outcome State Fault Refusal :=
  runUndecoded sync tag payload check s

end Sys2Proof.Machine
end

