-- ==== Sys2Proof/Machine/Dispatch.lean ====
section
/-! DEFINITION. Dispatch: one arm per instruction. -/

namespace Sys2Proof.Machine

def exec (i : Instr) (s : State) : Host.Outcome State Fault Refusal :=
  match i with
  | .gps sync payload check => Sys2Proof.Machine.execGps sync payload check s
  | .vario sync payload check => Sys2Proof.Machine.execVario sync payload check s
  | .battery sync payload check => Sys2Proof.Machine.execBattery sync payload check s
  | .baroAlt sync payload check => Sys2Proof.Machine.execBaroAlt sync payload check s
  | .linkStats sync payload check => Sys2Proof.Machine.execLinkStats sync payload check s
  | .attitude sync payload check => Sys2Proof.Machine.execAttitude sync payload check s
  | .heartbeat sync payload check => Sys2Proof.Machine.execHeartbeat sync payload check s
  | .videoTransmitter sync payload check => Sys2Proof.Machine.execVideoTransmitter sync payload check s
  | .rcChannelsPacked sync payload check => Sys2Proof.Machine.execRcChannelsPacked sync payload check s
  | .flightMode sync payload check => Sys2Proof.Machine.execFlightMode sync payload check s
  | .deviceInfo sync payload check => Sys2Proof.Machine.execDeviceInfo sync payload check s
  | .configRead sync payload check => Sys2Proof.Machine.execConfigRead sync payload check s
  | .configWrite sync payload check => Sys2Proof.Machine.execConfigWrite sync payload check s
  | .radioId sync payload check => Sys2Proof.Machine.execRadioId sync payload check s
  | .unknown sync tag payload check => Sys2Proof.Machine.execUnknown sync tag payload check s

end Sys2Proof.Machine
end

