-- ==== Sys2Proof/Machine/Step.lean ====
section
/-! DEFINITION. One micro-step of the block (10_state.md R15), and the placing of a table word where the step fetches. -/

namespace Sys2Proof.Machine

/-- One micro-step at the control point (R15): ACCUMULATING tests the header and captures a frame,
or ends the pass; EXTRACTING runs the captured frame (R64); DESYNC discards the buffer (R59). -/
def step (s : State) : Host.Outcome State Fault Refusal :=
  match s.control with
  | .accumulating => .next s.accumulate
  | .extracting =>
    match s.fetch with
    | some i => exec i s
    | none => .fault .noCandidateFrame
  | .desync => .next s.discard

/-- `s` with a word of the opcode table in the frame register, where the step fetches its next
instruction, and the control point at EXTRACTING (log 10). -/
def State.withFetchWord (s : State) (nbits w : Nat) : State :=
  { s with frame := some (tableFrame s.cfg nbits w), control := .extracting }

end Sys2Proof.Machine
end

