-- ==== Sys2Proof/Machine/Reassembler.lean ====
section
/-! DEFINITION. The frame buffer / resynchronizer at the level of the transaction (41_reassembler.md): DRAIN, FEED and runs of FEEDs as functions. The micro-steps of `step` implement them. -/

namespace Sys2Proof.Machine

/-- What a DRAIN works on: the buffer, the ghost position and the event list of the FEED (R57). -/
structure Pass where
  buf : List Byte
  pos : Nat
  events : List Event
deriving DecidableEq, Repr

/-- `DRAIN()` of R57, at most `fuel` iterations. -/
def drain (c : Config) : Nat → Pass → Pass
  | 0, p => p
  | fuel + 1, p =>
    match boundary c p.buf with
    | .needHeader => p
    | .desync =>
      { buf := []
        pos := p.pos + p.buf.length
        events := p.events ++ [.desyncDiscard p.buf.length] }
    | .needBody => p
    | .extract e =>
      drain c fuel
        { buf := p.buf.drop e
          pos := p.pos + e
          events := p.events ++ [processEvent c (p.buf.take e)] }

/-- `DRAIN()` run to its end: every iteration but the last removes bytes (R63), so `|buf| + 1`
iterations are enough. -/
def drainAll (c : Config) (p : Pass) : Pass :=
  drain c (p.buf.length + 1) p

/-- `FEED(chunk)` of R56, as one transaction: the next state and the events it returns. -/
def State.feed (s : State) (chunk : List Byte) : State × List Event :=
  let p := drainAll s.cfg { buf := s.buf ++ chunk, pos := s.pos, events := [] }
  ({ s with buf := p.buf, pos := p.pos }, p.events)

/-- FEEDs one after another, the events concatenated in order (R29). -/
def State.feedAll (s : State) : List (List Byte) → State × List Event
  | [] => (s, [])
  | chunk :: rest =>
    let (t, here) := s.feed chunk
    let (u, later) := t.feedAll rest
    (u, here ++ later)

end Sys2Proof.Machine
end

