-- ==== Sys2Proof/Machine/Serial.lean ====
section
/-! DEFINITION. The byte-serial port realisation of 92_eei_decisions.md D2 (70_reset_and_hazards.md R108): not normative, no part of the machine `core`; a construction that is to raise exactly the events of FEED. -/

namespace Sys2Proof.Machine

/-- One accepted input beat: `in_data` and `in_last` (the last byte of its chunk). -/
structure Beat where
  data : Byte
  last : Bool
deriving DecidableEq, Repr

/-- The state of D2. The register's fill count `n` is the length of `reg`. -/
structure Serial where
  reg : List Byte
  crc : Byte
  flushing : Bool
  dropped : Nat
deriving DecidableEq, Repr

/-- The state after `rst`, which performs RESET: the register is empty (R98). D2 gives the other
values no reset. The checksum at its seed and the flag off are read from its behaviour between
chunks; the discard counter `k` at 0 is the model's choice, and no event shows it, since `k` is set
before it is read (log 13). -/
def Serial.reset : Serial where
  reg := []
  crc := crcSeed
  flushing := false
  dropped := 0

/-- `n <- 0`: the register is empty and the running checksum starts again. -/
def Serial.clear (s : Serial) : Serial :=
  { s with reg := [], crc := crcSeed }

/-- PROCESS on the register, its verdict from the running checksum, which has run over the checksum
byte too: a match is a zero residue (R51 (c)). -/
def Serial.processed (c : Config) (crc : Byte) (reg : List Byte) : Event :=
  if crc = 0 then decodeEvent c (reg.getD 2 0) reg else .checksumError reg

/-- Behaviour per accepted input beat (D2): the next state and the event emitted, if any. -/
def Serial.beat (c : Config) (s : Serial) (b : Beat) : Serial × List Event :=
  if s.flushing then
    let k := s.dropped + 1
    if b.last then ({ s.clear with flushing := false, dropped := k }, [.desyncDiscard k])
    else ({ s with dropped := k }, [])
  else
    let reg := s.reg ++ [b.data]
    let crc := if s.reg.length < 2 then s.crc else crcByte s.crc b.data
    let size := expectedLen (reg.getD 1 0)
    if reg.length = 2 ∧ legalSize c size = false then
      if b.last then (s.clear, [.desyncDiscard 2])
      else ({ s.clear with flushing := true, dropped := 2 }, [])
    else if 2 ≤ reg.length ∧ reg.length = size then
      (s.clear, [Serial.processed c crc reg])
    else ({ s with reg := reg, crc := crc }, [])

/-- Beats one after another. -/
def Serial.run (c : Config) (s : Serial) : List Beat → Serial × List Event
  | [] => (s, [])
  | b :: rest =>
    let (t, here) := s.beat c b
    let (u, later) := t.run c rest
    (u, here ++ later)

/-- The beats of one chunk, the last one marked; an empty chunk has no beat. -/
def Beat.ofChunk : List Byte → List Beat
  | [] => []
  | [b] => [⟨b, true⟩]
  | b :: b' :: rest => ⟨b, false⟩ :: Beat.ofChunk (b' :: rest)

/-! ## The output beat -/

/-- The output beat of D2. `fields` holds the raw integers of the record in the layout's order;
`len`, `raw`, `tag` and `count` are empty or zero where the kind has none. -/
structure EventPort where
  kind : BitVec 3
  tag : Byte
  len : Nat
  raw : List Byte
  count : Nat
  fields : List Int
deriving DecidableEq, Repr

/-- The raw integers of a record, in the order of its layout (R74 to R79). -/
def Record.rawFields : Record → List Int
  | .gps lat lon gs hdg alt sats => [lat.raw, lon.raw, gs.raw, hdg.raw, alt, sats]
  | .vario vs => [vs.raw]
  | .battery v a mah pct => [v.raw, a.raw, mah, pct]
  | .baroAlt alt => [alt.raw]
  | .linkStatistics r1 r2 lq snr => [r1, r2, lq, snr]
  | .attitude p r y => [p.raw, r.raw, y.raw]

/-- An event on the output port. -/
def Event.port (e : Event) : EventPort :=
  match e with
  | .decodedRecord tag r => ⟨e.kind, tag, 0, [], 0, r.rawFields⟩
  | .unknownType tag F => ⟨e.kind, tag, F.length, F, 0, []⟩
  | .checksumError F => ⟨e.kind, 0, F.length, F, 0, []⟩
  | .truncatedPayload tag F => ⟨e.kind, tag, F.length, F, 0, []⟩
  | .desyncDiscard n => ⟨e.kind, 0, 0, [], n, []⟩

end Sys2Proof.Machine
end

