-- ==== Sys2Proof/Safety.lean ====
section
/-! DEFINITION. The terms the claims use: legal frames, quiescence, sound events, the invariant of the machine, and the segments a stream is cut into. -/

namespace Sys2Proof.Machine

/-- One whole candidate frame and nothing else: `|F| = F[1] + 2`, a legal size (R11, R61). -/
abbrev LegalFrame (c : Config) (F : List Byte) : Prop :=
  boundary c F = .extract F.length

/-- Quiescence, R62 (a): fewer than two bytes, or a legal header whose frame is not all there. -/
abbrev Quiescent (c : Config) (buf : List Byte) : Prop :=
  buf.length < 2 ∨
    (legalSize c (expectedLen (buf.getD 1 0)) = true ∧ buf.length < expectedLen (buf.getD 1 0))

/-- The integer fits `n` bits of two's complement. -/
abbrev FitsSigned (n : Nat) (v : Int) : Prop := -(2 ^ (n - 1)) ≤ v ∧ v < 2 ^ (n - 1)

/-- A record is one the decoder of `tag` can give: the variant of the tag, the layout's constants,
and every raw value within its field (R18, R25, R73, R74 to R79). -/
def Record.Sound (c : Config) (tag : Byte) : Record → Prop
  | .gps lat lon gs hdg alt sats =>
    tag = c.tagGps ∧ lat.den = 10000000 ∧ lon.den = 10000000 ∧ gs.den = 36 ∧ hdg.den = 100 ∧
      FitsSigned 32 lat.raw ∧ FitsSigned 32 lon.raw ∧ FitsSigned 16 gs.raw ∧
      FitsSigned 16 hdg.raw ∧ -33768 ≤ alt ∧ alt ≤ 31767 ∧ sats ≤ 255
  | .vario vs => tag = c.tagVario ∧ vs.den = 10 ∧ FitsSigned 16 vs.raw
  | .battery v a mah pct =>
    tag = c.tagBattery ∧ v.den = 10 ∧ a.den = 10 ∧ FitsSigned 16 v.raw ∧ FitsSigned 16 a.raw ∧
      mah ≤ 16777215 ∧ pct ≤ 255
  | .baroAlt alt => tag = c.tagBaroAlt ∧ alt.den = 100 ∧ FitsSigned 32 alt.raw
  | .linkStatistics r1 r2 lq snr =>
    tag = c.tagLinkStats ∧ FitsSigned 8 r1 ∧ FitsSigned 8 r2 ∧ lq ≤ 255 ∧ FitsSigned 8 snr
  | .attitude p r y =>
    tag = c.tagAttitude ∧ p.den = 10000 ∧ r.den = 10000 ∧ y.den = 10000 ∧
      FitsSigned 16 p.raw ∧ FitsSigned 16 r.raw ∧ FitsSigned 16 y.raw

/-- The required payload length of a type byte (R44, R68); 0 for a type without a decoder. -/
def requiredLenOfTag (c : Config) (tag : Byte) : Nat :=
  requiredLen c (rowOfTag c tag)

/-- The content of an event is what R18 and R85 to R89 give its kind. -/
def Event.Sound (c : Config) : Event → Prop
  | .decodedRecord tag r => r.Sound c tag
  | .unknownType tag F => LegalFrame c F ∧ validate F = true ∧ F[2]? = some tag ∧ tag ∉ c.tags
  | .checksumError F => LegalFrame c F ∧ validate F = false
  | .truncatedPayload tag F =>
    LegalFrame c F ∧ validate F = true ∧ F[2]? = some tag ∧ tag ∈ c.tags ∧
      plen F < requiredLenOfTag c tag
  | .desyncDiscard n => 2 ≤ n

/-- The frame register agrees with the control point (R11, R15): a whole legal frame exactly while
EXTRACTING, an illegal header in the buffer while DESYNC. -/
def State.ControlOk (s : State) : Prop :=
  match s.control with
  | .accumulating => s.frame = none
  | .extracting => ∃ F, s.frame = some F ∧ LegalFrame s.cfg F
  | .desync => s.frame = none ∧ boundary s.cfg s.buf = .desync

/-- The invariant of the machine: valid parameters (R8), control and frame register in agreement,
and every event raised or delivered of sound content. -/
def State.Inv (s : State) : Prop :=
  s.cfg.Valid ∧ s.ControlOk ∧ (∀ e ∈ s.events, e.Sound s.cfg) ∧ (∀ e ∈ s.sink, e.Sound s.cfg)

/-- Between FEEDs: the block waits for the next move (R15, R62 (a)), nothing is pending. -/
def State.Idle (s : State) : Prop :=
  s.control = .accumulating ∧ s.frame = none ∧ s.events = [] ∧ Quiescent s.cfg s.buf

/-- At a chunk end the byte-serial realisation holds the buffer's bytes in its register, its checksum
has run over those from offset 2 on (R51 (f)), and it is not flushing. The discard counter is free:
nothing reads it then (D2, log 13). -/
def Serial.Tracks (u : Serial) (buf : List Byte) : Prop :=
  u.flushing = false ∧ u.reg = buf ∧ u.crc = crcFrom crcSeed (buf.drop 2)

/-- What one event reports: a candidate frame, or the bytes of one discard (R62 (b)). -/
inductive Segment where
  | frame (F : List Byte)
  | discard (bytes : List Byte)
deriving DecidableEq, Repr

/-- The stream bytes of a segment. -/
def Segment.bytes : Segment → List Byte
  | .frame F => F
  | .discard d => d

/-- The one event a segment produces (R64, R59, R94). -/
def Segment.event (c : Config) : Segment → Event
  | .frame F => processEvent c F
  | .discard d => .desyncDiscard d.length

/-- The event is a DesyncDiscard. -/
def Event.isDesync : Event → Bool
  | .desyncDiscard _ => true
  | _ => false

/-- An event with its raw frame, where it carries one, changed by `f`. -/
def Event.mapRaw (f : List Byte → List Byte) : Event → Event
  | .decodedRecord t r => .decodedRecord t r
  | .unknownType t F => .unknownType t (f F)
  | .checksumError F => .checksumError (f F)
  | .truncatedPayload t F => .truncatedPayload t (f F)
  | .desyncDiscard n => .desyncDiscard n

/-- The next state of an outcome, if it is one. -/
def nextState : Host.Outcome State Fault Refusal → Option State
  | .next s => some s
  | .fault _ => none
  | .refused _ => none

/-- `n` micro-steps of the machine, stopping at the first that answers no next state: what the
host's `Core.run` does on `core`. -/
def runSteps : Nat → State → Host.Outcome State Fault Refusal
  | 0, s => .next s
  | n + 1, s =>
    match step s with
    | .next t => runSteps n t
    | .fault r => .fault r
    | .refused r => .refused r

end Sys2Proof.Machine
end

