-- ==== Sys2Proof/Certificates/Slice0/Obligations.lean ====
section
/-! DEFINITION. The statements for the provers, in the order of the spec's files. -/

open Sys2Proof Sys2Proof.Machine

/-! ## State, parameters, reset (10_state.md, 70_reset_and_hazards.md) -/

/-- R19: after reset the buffer is empty, the position is 0, no frame is captured, no event is
pending and the control point is ACCUMULATING. R98: a RESET brings every state there and leaves the
parameters, which are constants, as they are. That it keeps the queue of moves and the record of the
sink is the model's choice: both fields are its own (log 2, log 3). -/
def Obligations.ResetLeavesTheBlockEmpty : Prop :=
  State.reset.buf = [] ∧ State.reset.pos = 0 ∧ State.reset.frame = none ∧
    State.reset.events = [] ∧ State.reset.control = .accumulating ∧
    ∀ s : State,
      s.doReset = { State.reset with cfg := s.cfg, input := s.input, sink := s.sink }

/-- R98: a RESET taken between two FEEDs empties the buffer, sets the position to 0 and raises no
event; a move of the environment is taken between FEEDs alone, never inside one; and a DESYNC leaves
the state of RESET but for the position and the event it raises. The queue of moves is the model's own
(log 2). -/
def Obligations.ResetMoveEmptiesBufferKeepsParameters : Prop :=
  (∀ (s : State) (rest : List Input), s.Idle → s.input = .reset :: rest →
    step s = .next { s with buf := [], pos := 0, input := rest }) ∧
  (∀ s t : State, step s = .next t → t.input ≠ s.input →
    s.control = .accumulating ∧ s.events = [] ∧ Quiescent s.cfg s.buf) ∧
  (∀ s : State, s.control = .desync →
    step s = .next { s.doReset with
      pos := s.pos + s.buf.length
      events := s.events ++ [.desyncDiscard s.buf.length] })

/-- R28, R56: a chunk taken between two FEEDs is appended at the back in its order and touches no
byte already present. The queue of moves is the model's own (log 2). -/
def Obligations.FeedMoveAppendsChunk : Prop :=
  ∀ (s : State) (chunk : List Byte) (rest : List Input), s.Idle →
    s.input = .feed chunk :: rest →
      step s = .next { s with buf := s.buf ++ chunk, input := rest } ∧
      (∀ a < s.pos + s.buf.length,
        State.streamByte { s with buf := s.buf ++ chunk, input := rest } a = s.streamByte a) ∧
      (∀ k < chunk.length,
        State.streamByte { s with buf := s.buf ++ chunk, input := rest }
          (s.pos + s.buf.length + k) = chunk[k]?)

/-- R58, R60, R97 (e): with nothing to do and no move of the environment the block keeps its
state (that a step is taken then at all is the model's choice, log 12). -/
def Obligations.IdleBlockWaits : Prop :=
  ∀ s : State, s.Idle → s.input = [] → step s = .next s

/-- R17, R29 (d), R107: when the drain loop has stopped, all events of the FEED go to the sink, in
order, before the next move is taken. The record of the sink is the model's own (log 3). -/
def Obligations.EventsAreHandedOverBeforeTheNextMove : Prop :=
  ∀ s : State, s.control = .accumulating → Quiescent s.cfg s.buf → s.events ≠ [] →
    step s = .next { s with sink := s.sink ++ s.events, events := [] }

/-- R8: the parameters never change while the block runs. -/
def Obligations.ParametersNeverChange : Prop :=
  ∀ s t : State, step s = .next t → t.cfg = s.cfg

/-- R10, R13: unless a RESET is taken, the position never decreases, no byte that has left the front
is seen again, and no byte still in the buffer changes or moves. That an address below the position
reads as nothing, the last clause, is the model's convention for reading the stream (log 9). -/
def Obligations.BytesNeverRevisitedNorRewritten : Prop :=
  ∀ s t : State, step s = .next t →
    (∃ rest, s.input = .reset :: rest ∧ t.input = rest) ∨
      (s.pos ≤ t.pos ∧ s.pos + s.buf.length ≤ t.pos + t.buf.length ∧
        (∀ a, t.pos ≤ a → a < s.pos + s.buf.length → t.streamByte a = s.streamByte a) ∧
        (∀ a < t.pos, t.streamByte a = none))

/-! ## Memory reads (20_memory.md) -/

/-- R24, R22: `MemRead` is the big-endian value of `k` payload bytes when they lie in the payload
region, whose length comes from the size of the frame, and nothing otherwise. -/
def Obligations.MemReadIsBoundedBigEndian : Prop :=
  ∀ (F : List Byte) (o k : Nat),
    plen F = (if 4 ≤ F.length then F.length - 4 else 0) ∧
    (o + k ≤ plen F →
      memRead F o k =
        some (∑ i ∈ Finset.range k, (F.getD (3 + o + i) 0).toNat * 256 ^ (k - 1 - i))) ∧
    (plen F < o + k → memRead F o k = none)

/-- R25: the named forms are `MemRead` read as unsigned or as two's complement (values from the half
of the range on map to `value - 256` and so on), within the stated ranges. -/
def Obligations.NamedReadsStayInRange : Prop :=
  ∀ (F : List Byte) (o : Nat),
    rdU8 F o = memRead F o 1 ∧ (∀ v, rdU8 F o = some v → v ≤ 255) ∧
    rdU24 F o = memRead F o 3 ∧ (∀ v, rdU24 F o = some v → v ≤ 16777215) ∧
    rdI8 F o = (memRead F o 1).map (fun v => if v < 128 then (v : Int) else v - 256) ∧
    (∀ v, rdI8 F o = some v → -128 ≤ v ∧ v ≤ 127) ∧
    rdI16 F o = (memRead F o 2).map (fun v => if v < 32768 then (v : Int) else v - 65536) ∧
    (∀ v, rdI16 F o = some v → -32768 ≤ v ∧ v ≤ 32767) ∧
    rdI32 F o =
      (memRead F o 4).map (fun v => if v < 2147483648 then (v : Int) else v - 4294967296) ∧
    (∀ v, rdI32 F o = some v → -2147483648 ≤ v ∧ v ≤ 2147483647)

/-- R69, R24: the decoders see the payload only. Two slices of one size with the same payload read
alike, and give the same record, whatever their sync, length, type and checksum bytes. -/
def Obligations.DecodersSeeOnlyThePayload : Prop :=
  ∀ (c : Config) (F G : List Byte), F.length = G.length → payloadOf F = payloadOf G →
    (∀ o k, memRead F o k = memRead G o k) ∧
    (∀ tag r, decodeEvent c tag F = .decodedRecord tag r →
      decodeEvent c tag G = .decodedRecord tag r)

/-! ## Encoding (30_encoding.md) -/

/-- R34, R35, R37, R38, R39: decode of encode is the instruction, for every well-formed instruction,
every operand value and whatever bytes follow. -/
def Obligations.DecodeOfEncodeIsTheInstruction : Prop :=
  ∀ (c : Config) (i : Instr) (rest : List Byte), c.Valid → WellFormed c i = true →
    decode c (encode c i ++ rest) = .instr i rest

/-- The other direction: an instruction decoded is well formed, and encodes to the bytes it was read
from, so no two byte strings are one instruction and no byte is dropped. -/
def Obligations.EncodeOfDecodeIsTheBytes : Prop :=
  ∀ (c : Config) (bytes : List Byte) (i : Instr) (rest : List Byte),
    decode c bytes = .instr i rest → WellFormed c i = true ∧ encode c i ++ rest = bytes

/-- R36, R42 (c), R45: the decoder rejects exactly a missing header, a length outside
`[4, MAX_FRAME_SIZE]` and a missing body, each by its name, `E` formed without wrap-around. -/
def Obligations.DecoderRejectsByName : Prop :=
  ∀ (c : Config) (bytes : List Byte),
    (decode c bytes = .needHeader ↔ bytes.length < 2) ∧
    (∀ (x len : Byte) (t : List Byte), bytes = x :: len :: t →
      (decode c bytes = .illegalLength ↔
        len.toNat + 2 < 4 ∨ c.maxFrameSize < len.toNat + 2) ∧
      (decode c bytes = .needBody ↔
        4 ≤ len.toNat + 2 ∧ len.toNat + 2 ≤ c.maxFrameSize ∧ bytes.length < len.toNat + 2) ∧
      ((∃ i rest, decode c bytes = .instr i rest) ↔
        4 ≤ len.toNat + 2 ∧ len.toNat + 2 ≤ c.maxFrameSize ∧ len.toNat + 2 ≤ bytes.length))

/-- R46: at the reference parameters the first row of the opcode table that a frame's header matches
is the instruction's row, with its required length (the type bytes are PRESUMED, log 6 and log 8). -/
def Obligations.FirstTableMatchIsTheInstructionsRow : Prop :=
  ∀ i : Instr, WellFormed Config.reference i = true →
    ∃ r, selectRow (headerBits i.sync (BitVec.ofNat 8 (i.payload.length + 2))
        (i.tag Config.reference)) = some r ∧
      r.mnemonic = i.mnemonic ∧ r.reqLen = requiredLen Config.reference i.mnemonic

/-- R41, R68, R42 (a), R81: the type byte alone selects the row, the six tag parameters their six
decoders and every other value a row without a decoder. -/
def Obligations.TypeByteSelectsTheRow : Prop :=
  ∀ c : Config, c.Valid →
    rowOfTag c c.tagGps = .gps ∧ rowOfTag c c.tagVario = .vario ∧
    rowOfTag c c.tagBattery = .battery ∧ rowOfTag c c.tagBaroAlt = .baroAlt ∧
    rowOfTag c c.tagLinkStats = .linkStats ∧ rowOfTag c c.tagAttitude = .attitude ∧
    ∀ (sync tag : Byte) (payload : List Byte) (check : Byte), tag ∉ c.tags →
      rowOfTag c tag ∈ [Mnemonic.heartbeat, .videoTransmitter, .rcChannelsPacked, .flightMode,
        .deviceInfo, .configRead, .configWrite, .radioId, .unknown] ∧
      (dispatch c sync tag payload check).tag c = tag

/-- R34, R41: words written out from the spec's encoding decode to the instructions they stand
for. The type bytes are PRESUMED values of the parameters (log 6, log 8). -/
def Obligations.SpecWordsDecode : Prop :=
  decode Config.reference [0xC8, 0x04, 0x07, 0xFF, 0xE7, 0xD9] =
      .instr (.vario 0xC8 [0xFF, 0xE7] 0xD9) [] ∧
    decode Config.reference [0xC8, 0x08, 0x1E, 0x03, 0xE8, 0xFE, 0x0C, 0x00, 0xFA, 0x4F] =
      .instr (.attitude 0xC8 [0x03, 0xE8, 0xFE, 0x0C, 0x00, 0xFA] 0x4F) [] ∧
    decode Config.reference [0xC8, 0x04, 0x0B, 0x00, 0xEA, 0x36] =
      .instr (.heartbeat 0xC8 [0x00, 0xEA] 0x36) [] ∧
    decode Config.reference [0xC8, 0x02, 0xFF, 0xF9, 0xAA] =
      .instr (.unknown 0xC8 0xFF [] 0xF9) [0xAA]

/-- R40: the sync byte is never examined. It does not move a frame boundary, and a frame with
another first byte gives the same event but for that byte in the raw frame. -/
def Obligations.SyncByteIsNeverExamined : Prop :=
  ∀ (c : Config) (x y : Byte) (t : List Byte),
    boundary c (x :: t) = boundary c (y :: t) ∧
    (3 ≤ t.length →
      processEvent c (y :: t) = (processEvent c (x :: t)).mapRaw fun F => y :: F.tail)

/-- R47, R39: `mkframe` builds one legal frame whose checksum matches, with the type byte and the
payload in their places. -/
def Obligations.MkframeBuildsAValidFrame : Prop :=
  ∀ (c : Config) (sync tag : Byte) (payload : List Byte), c.Valid →
    payload.length + 4 ≤ c.maxFrameSize →
      LegalFrame c (mkframeSync sync tag payload) ∧
      validate (mkframeSync sync tag payload) = true ∧
      (mkframeSync sync tag payload)[0]? = some sync ∧
      (mkframeSync sync tag payload)[2]? = some tag ∧
      payloadOf (mkframeSync sync tag payload) = payload ∧
      mkframe tag payload = mkframeSync 0xC8 tag payload

/-! ## The checksum engine (40_checksum.md) -/

/-- R48, R49: the seed is the checksum of nothing, and one more byte is exclusive-ored into the
running value, which then takes eight bit steps; a bit step doubles modulo 256 and exclusive-ors
0xD5 when bit 7 was set. -/
def Obligations.Crc8IsTheByteLoop : Prop :=
  crc8 [] = 0x00 ∧
    (∀ (s : List Byte) (b : Byte), crc8 (s ++ [b]) = crcStep^[8] (crc8 s ^^^ b)) ∧
    (∀ c : Byte, (crcStep c).toNat =
      if 128 ≤ c.toNat then ((2 * c.toNat) % 256) ^^^ 0xD5 else 2 * c.toNat)

/-- R51 (c): appending the checksum leaves residue zero. -/
def Obligations.Crc8ResidueIsZero : Prop :=
  ∀ s : List Byte, crc8 (s ++ [crc8 s]) = 0x00

/-- R51 (d): linear over exclusive-or on sequences of one length. -/
def Obligations.Crc8IsLinear : Prop :=
  ∀ s t : List Byte, s.length = t.length →
    crc8 (List.zipWith (· ^^^ ·) s t) = crc8 s ^^^ crc8 t

/-- R51 (b), R106: zeros in front change nothing, zeros alone have checksum zero. -/
def Obligations.LeadingZerosAreNotProtected : Prop :=
  ∀ (n : Nat) (s : List Byte),
    crc8 (List.replicate n 0x00 ++ s) = crc8 s ∧ crc8 (List.replicate n 0x00) = 0x00

/-- R51 (f): the checksum of a concatenation continues from the checksum of the front. -/
def Obligations.Crc8Continues : Prop :=
  ∀ s t : List Byte, crc8 (s ++ t) = crcFrom (crc8 s) t

/-- R51 (e): a change of exactly one bit in the covered range or the checksum byte turns a match
into a mismatch. -/
def Obligations.SingleBitErrorsAreDetected : Prop :=
  ∀ (F : List Byte) (k j : Nat), 4 ≤ F.length → 2 ≤ k → k < F.length → j < 8 →
    validate F = true → validate (F.modify k (· ^^^ ((0x01 : Byte) <<< j))) = false

/-- R52: the byte-at-a-time table computes the checksum of R48. -/
def Obligations.TableDrivenCrc8IsCrc8 : Prop :=
  crcTable.length = 256 ∧ ∀ s : List Byte, crc8Table s = crc8 s

/-! ## The reassembler (41_reassembler.md) -/

/-- R57 (with R58 to R61): what a drain does, its tests in their order, `E = L + 2`. -/
def Obligations.DrainFollowsTheFiveSteps : Prop :=
  ∀ (c : Config) (p : Pass),
    (p.buf.length < 2 → drainAll c p = p) ∧
    (∀ (x len : Byte) (t : List Byte), p.buf = x :: len :: t →
      (¬(4 ≤ len.toNat + 2 ∧ len.toNat + 2 ≤ c.maxFrameSize) →
        drainAll c p =
          { buf := [], pos := p.pos + p.buf.length,
            events := p.events ++ [.desyncDiscard p.buf.length] }) ∧
      (4 ≤ len.toNat + 2 → len.toNat + 2 ≤ c.maxFrameSize → p.buf.length < len.toNat + 2 →
        drainAll c p = p) ∧
      (4 ≤ len.toNat + 2 → len.toNat + 2 ≤ c.maxFrameSize → len.toNat + 2 ≤ p.buf.length →
        drainAll c p =
          drainAll c
            { buf := p.buf.drop (len.toNat + 2), pos := p.pos + (len.toNat + 2),
              events := p.events ++ [processEvent c (p.buf.take (len.toNat + 2))] }))

/-- R56: FEED appends the chunk and drains, starting from an empty event list, and returns the
events; nothing else of the state is touched; an empty chunk leaves a quiescent block as it is. -/
def Obligations.FeedAppendsThenDrains : Prop :=
  ∀ (s : State) (chunk : List Byte),
    let p := drainAll s.cfg { buf := s.buf ++ chunk, pos := s.pos, events := [] }
    s.feed chunk = ({ s with buf := p.buf, pos := p.pos }, p.events) ∧
      (Quiescent s.cfg s.buf → s.feed [] = (s, []))

/-- R62 (a): after every FEED the buffer is quiescent, and shorter than a largest frame. -/
def Obligations.FeedLeavesAQuiescentBuffer : Prop :=
  ∀ (s : State) (chunk : List Byte),
    Quiescent s.cfg (s.feed chunk).1.buf ∧
    (s.cfg.Valid → (s.feed chunk).1.buf.length < s.cfg.maxFrameSize)

/-- R62 (b) and (c), R94, R29: every byte fed is in exactly one frame event, in the count of exactly
one discard, or still in the buffer, in stream order; the position counts the bytes that left. -/
def Obligations.FeedAccountsForEveryByte : Prop :=
  ∀ (s : State) (chunk : List Byte), ∃ segments : List Segment,
    (s.feed chunk).2 = segments.map (Segment.event s.cfg) ∧
    segments.flatMap Segment.bytes ++ (s.feed chunk).1.buf = s.buf ++ chunk ∧
    (s.feed chunk).1.pos = s.pos + (segments.flatMap Segment.bytes).length ∧
    (∀ F, Segment.frame F ∈ segments → LegalFrame s.cfg F) ∧
    (∀ d, Segment.discard d ∈ segments → 2 ≤ d.length)

/-- R63, R59: a FEED that starts with `n` bytes raises at most `n / 4 + 1` events; a DesyncDiscard
is the last of them and leaves the buffer empty. -/
def Obligations.FeedRaisesBoundedEventsDesyncLast : Prop :=
  ∀ (s : State) (chunk : List Byte),
    (s.feed chunk).2.length ≤ (s.buf.length + chunk.length) / 4 + 1 ∧
    (∀ e ∈ (s.feed chunk).2.dropLast, e.isDesync = false) ∧
    ((∃ e ∈ (s.feed chunk).2, e.isDesync = true) → (s.feed chunk).1.buf = [])

/-- R61, R66, R70: the frame at the front costs only itself. Its event is reported and the bytes
behind it give exactly the events they give alone. -/
def Obligations.FrontFrameCostsOnlyItself : Prop :=
  ∀ (s : State) (i : Instr) (rest : List Byte), s.cfg.Valid → WellFormed s.cfg i = true →
    s.buf = [] →
      s.feed (encode s.cfg i ++ rest) =
        ((State.feed { s with pos := s.pos + (encode s.cfg i).length } rest).1,
          processEvent s.cfg (encode s.cfg i) ::
            (State.feed { s with pos := s.pos + (encode s.cfg i).length } rest).2)

/-- R103: when the one-chunk run raises no DesyncDiscard, every split of the chunk gives the same
events and the same state. -/
def Obligations.ChunkBoundariesInvisibleWithoutDesync : Prop :=
  ∀ (s : State) (chunks : List (List Byte)), Quiescent s.cfg s.buf →
    (∀ e ∈ (s.feed chunks.flatten).2, e.isDesync = false) →
      s.feedAll chunks = s.feed chunks.flatten

/-- R103, R102: with a DesyncDiscard, the split is visible (programs P3a and P3b, at the reference
parameters, log 6). -/
def Obligations.ChunkBoundariesVisibleWithDesync : Prop :=
  (State.reset.feed [0x55, 0x00, 0xC8, 0x04, 0x07, 0xFF, 0xE7, 0xD9]).2 = [.desyncDiscard 8] ∧
    (State.reset.feedAll [[0x55, 0x00], [0xC8, 0x04, 0x07, 0xFF, 0xE7, 0xD9]]).2 =
      [.desyncDiscard 2, .decodedRecord 0x07 (.vario ⟨-25, 10⟩)]

/-- R103, R108: fed one byte at a time, a DESYNC always discards exactly two bytes. -/
def Obligations.OneByteChunksDiscardTwoBytes : Prop :=
  ∀ (s : State) (bytes : List Byte) (n : Nat), Quiescent s.cfg s.buf →
    .desyncDiscard n ∈ (s.feedAll (bytes.map fun b => [b])).2 → n = 2

/-! ## Instructions: validator and decoder (42_validator.md, 43_decoder.md) -/

/-- R65, R66, R86, for each of the fifteen instructions: on a checksum mismatch the whole frame is
reported as a ChecksumError and decoding is skipped; the buffer is not touched. -/
def Obligations.MismatchReportsChecksumErrorOnly : Prop :=
  ∀ (i : Instr) (s : State), crc8 (i.tag s.cfg :: i.payload) ≠ i.check →
    exec i s =
      .next { s with
        events := s.events ++ [.checksumError (encode s.cfg i)]
        frame := none
        control := .accumulating }

/-- R74: GPS. -/
def Obligations.GpsFrameResult : Prop :=
  ∀ (s : State) (sync : Byte),
    (∀ (p0 p1 p2 p3 p4 p5 p6 p7 p8 p9 p10 p11 p12 p13 p14 : Byte) (rest : List Byte),
      let payload := p0 :: p1 :: p2 :: p3 :: p4 :: p5 :: p6 :: p7 :: p8 :: p9 :: p10 :: p11 ::
        p12 :: p13 :: p14 :: rest
      exec (.gps sync payload (crc8 (s.cfg.tagGps :: payload))) s =
        .next { s with
          events := s.events ++ [.decodedRecord s.cfg.tagGps
            (.gps ⟨(p0 ++ p1 ++ p2 ++ p3 : BitVec 32).toInt, 10000000⟩
              ⟨(p4 ++ p5 ++ p6 ++ p7 : BitVec 32).toInt, 10000000⟩
              ⟨(p8 ++ p9 : BitVec 16).toInt, 36⟩
              ⟨(p10 ++ p11 : BitVec 16).toInt, 100⟩
              ((p12 ++ p13 : BitVec 16).toInt - 1000) p14.toNat)]
          frame := none
          control := .accumulating }) ∧
    (∀ payload : List Byte, payload.length < 15 →
      exec (.gps sync payload (crc8 (s.cfg.tagGps :: payload))) s =
        .next { s with
          events := s.events ++ [.truncatedPayload s.cfg.tagGps
            (mkframeSync sync s.cfg.tagGps payload)]
          frame := none
          control := .accumulating })

/-- R75: VARIO. -/
def Obligations.VarioFrameResult : Prop :=
  ∀ (s : State) (sync : Byte),
    (∀ (p0 p1 : Byte) (rest : List Byte),
      exec (.vario sync (p0 :: p1 :: rest) (crc8 (s.cfg.tagVario :: p0 :: p1 :: rest))) s =
        .next { s with
          events := s.events ++ [.decodedRecord s.cfg.tagVario
            (.vario ⟨(p0 ++ p1 : BitVec 16).toInt, 10⟩)]
          frame := none
          control := .accumulating }) ∧
    (∀ payload : List Byte, payload.length < 2 →
      exec (.vario sync payload (crc8 (s.cfg.tagVario :: payload))) s =
        .next { s with
          events := s.events ++ [.truncatedPayload s.cfg.tagVario
            (mkframeSync sync s.cfg.tagVario payload)]
          frame := none
          control := .accumulating })

/-- R76: BATTERY. -/
def Obligations.BatteryFrameResult : Prop :=
  ∀ (s : State) (sync : Byte),
    (∀ (p0 p1 p2 p3 p4 p5 p6 p7 : Byte) (rest : List Byte),
      let payload := p0 :: p1 :: p2 :: p3 :: p4 :: p5 :: p6 :: p7 :: rest
      exec (.battery sync payload (crc8 (s.cfg.tagBattery :: payload))) s =
        .next { s with
          events := s.events ++ [.decodedRecord s.cfg.tagBattery
            (.battery ⟨(p0 ++ p1 : BitVec 16).toInt, 10⟩ ⟨(p2 ++ p3 : BitVec 16).toInt, 10⟩
              (p4 ++ p5 ++ p6 : BitVec 24).toNat p7.toNat)]
          frame := none
          control := .accumulating }) ∧
    (∀ payload : List Byte, payload.length < 8 →
      exec (.battery sync payload (crc8 (s.cfg.tagBattery :: payload))) s =
        .next { s with
          events := s.events ++ [.truncatedPayload s.cfg.tagBattery
            (mkframeSync sync s.cfg.tagBattery payload)]
          frame := none
          control := .accumulating })

/-- R77: BAROALT. -/
def Obligations.BaroAltFrameResult : Prop :=
  ∀ (s : State) (sync : Byte),
    (∀ (p0 p1 p2 p3 : Byte) (rest : List Byte),
      let payload := p0 :: p1 :: p2 :: p3 :: rest
      exec (.baroAlt sync payload (crc8 (s.cfg.tagBaroAlt :: payload))) s =
        .next { s with
          events := s.events ++ [.decodedRecord s.cfg.tagBaroAlt
            (.baroAlt ⟨(p0 ++ p1 ++ p2 ++ p3 : BitVec 32).toInt, 100⟩)]
          frame := none
          control := .accumulating }) ∧
    (∀ payload : List Byte, payload.length < 4 →
      exec (.baroAlt sync payload (crc8 (s.cfg.tagBaroAlt :: payload))) s =
        .next { s with
          events := s.events ++ [.truncatedPayload s.cfg.tagBaroAlt
            (mkframeSync sync s.cfg.tagBaroAlt payload)]
          frame := none
          control := .accumulating })

/-- R78: LINKSTATS, at whatever offsets the parameters give the four bytes. -/
def Obligations.LinkStatsFrameResult : Prop :=
  ∀ (s : State) (sync : Byte) (payload : List Byte),
    (∀ b1 b2 q n : Byte, payload[s.cfg.lsOffRssi1]? = some b1 →
      payload[s.cfg.lsOffRssi2]? = some b2 → payload[s.cfg.lsOffLq]? = some q →
      payload[s.cfg.lsOffSnr]? = some n →
        exec (.linkStats sync payload (crc8 (s.cfg.tagLinkStats :: payload))) s =
          .next { s with
            events := s.events ++ [.decodedRecord s.cfg.tagLinkStats
              (.linkStatistics b1.toInt b2.toInt q.toNat n.toInt)]
            frame := none
            control := .accumulating }) ∧
    ((∃ o ∈ s.cfg.lsOffsets, payload.length ≤ o) →
      exec (.linkStats sync payload (crc8 (s.cfg.tagLinkStats :: payload))) s =
        .next { s with
          events := s.events ++ [.truncatedPayload s.cfg.tagLinkStats
            (mkframeSync sync s.cfg.tagLinkStats payload)]
          frame := none
          control := .accumulating })

/-- R79: ATTITUDE. -/
def Obligations.AttitudeFrameResult : Prop :=
  ∀ (s : State) (sync : Byte),
    (∀ (p0 p1 p2 p3 p4 p5 : Byte) (rest : List Byte),
      let payload := p0 :: p1 :: p2 :: p3 :: p4 :: p5 :: rest
      exec (.attitude sync payload (crc8 (s.cfg.tagAttitude :: payload))) s =
        .next { s with
          events := s.events ++ [.decodedRecord s.cfg.tagAttitude
            (.attitude ⟨(p0 ++ p1 : BitVec 16).toInt, 10000⟩
              ⟨(p2 ++ p3 : BitVec 16).toInt, 10000⟩ ⟨(p4 ++ p5 : BitVec 16).toInt, 10000⟩)]
          frame := none
          control := .accumulating }) ∧
    (∀ payload : List Byte, payload.length < 6 →
      exec (.attitude sync payload (crc8 (s.cfg.tagAttitude :: payload))) s =
        .next { s with
          events := s.events ++ [.truncatedPayload s.cfg.tagAttitude
            (mkframeSync sync s.cfg.tagAttitude payload)]
          frame := none
          control := .accumulating })

/-- R80, R81, R88: the eight named types without a layout and every other undecoded type report
UnknownType with their tag and raw frame, whatever the payload and its length. -/
def Obligations.UndecodedTypesReportUnknownType : Prop :=
  ∀ (s : State) (sync : Byte) (payload : List Byte),
    let reported := fun tag : Byte => (Host.Outcome.next { s with
      events := s.events ++ [.unknownType tag (mkframeSync sync tag payload)]
      frame := none
      control := .accumulating } : Host.Outcome State Fault Refusal)
    let sum := fun tag : Byte => crc8 (tag :: payload)
    exec (.heartbeat sync payload (sum tagHeartbeat)) s = reported tagHeartbeat ∧
    exec (.videoTransmitter sync payload (sum tagVideoTransmitter)) s = reported tagVideoTransmitter ∧
    exec (.rcChannelsPacked sync payload (sum tagRcChannelsPacked)) s = reported tagRcChannelsPacked ∧
    exec (.flightMode sync payload (sum tagFlightMode)) s = reported tagFlightMode ∧
    exec (.deviceInfo sync payload (sum tagDeviceInfo)) s = reported tagDeviceInfo ∧
    exec (.configRead sync payload (sum tagConfigRead)) s = reported tagConfigRead ∧
    exec (.configWrite sync payload (sum tagConfigWrite)) s = reported tagConfigWrite ∧
    exec (.radioId sync payload (sum tagRadioId)) s = reported tagRadioId ∧
    ∀ tag : Byte, exec (.unknown sync tag payload (sum tag)) s = reported tag

/-- R64, R82, R84, R92: the frame of every instruction. A meaning raises exactly one event; the
buffer, the position, every byte of the stream, the parameters and the environment's queues stay as
they were. -/
def Obligations.MeaningsRaiseOneEventAndChangeNothingElse : Prop :=
  ∀ (i : Instr) (s : State), ∃ t : State, exec i s = .next t ∧
    (∃ e, t.events = s.events ++ [e]) ∧ t.frame = none ∧ t.control = .accumulating ∧
    t.cfg = s.cfg ∧ t.buf = s.buf ∧ t.pos = s.pos ∧ t.input = s.input ∧ t.sink = s.sink ∧
    ∀ a, t.streamByte a = s.streamByte a

/-- R64, R68, R82: the meaning of the instruction a captured frame decodes to raises the event of
`PROCESS(F)`, the one chain of tests over the raw frame. -/
def Obligations.MeaningsImplementProcess : Prop :=
  ∀ (s : State) (F : List Byte) (i : Instr), decode s.cfg F = .instr i [] →
    exec i s =
      .next { s with
        events := s.events ++ [processEvent s.cfg F]
        frame := none
        control := .accumulating }

/-- R91 (orders 4 to 7), R64, R68, R70: the first test that applies decides the event of a frame,
and a record has the variant of its type and fields within their ranges. -/
def Obligations.ProcessTestsInOrder : Prop :=
  ∀ (c : Config) (F : List Byte), 4 ≤ F.length →
    (crc8 ((F.drop 2).take (F.length - 3)) ≠ F.getD (F.length - 1) 0 →
      processEvent c F = .checksumError F) ∧
    (crc8 ((F.drop 2).take (F.length - 3)) = F.getD (F.length - 1) 0 →
      (F.getD 2 0 ∉ c.tags → processEvent c F = .unknownType (F.getD 2 0) F) ∧
      (F.getD 2 0 ∈ c.tags → F.length - 4 < requiredLenOfTag c (F.getD 2 0) →
        processEvent c F = .truncatedPayload (F.getD 2 0) F) ∧
      (F.getD 2 0 ∈ c.tags → requiredLenOfTag c (F.getD 2 0) ≤ F.length - 4 →
        ∃ r, processEvent c F = .decodedRecord (F.getD 2 0) r ∧ r.Sound c (F.getD 2 0)))

/-- R72: the decoder on its own is defined for every slice; the bound comes from the size of the
slice, and an unknown tag is never truncated. -/
def Obligations.DecodeIsDefinedOnBareSlices : Prop :=
  ∀ (c : Config) (tag : Byte) (F : List Byte),
    (tag ∉ c.tags → decodeEvent c tag F = .unknownType tag F) ∧
    (tag ∈ c.tags → F.length - 4 < requiredLenOfTag c tag →
      decodeEvent c tag F = .truncatedPayload tag F) ∧
    (tag ∈ c.tags → requiredLenOfTag c tag ≤ F.length - 4 →
      ∃ r, decodeEvent c tag F = .decodedRecord tag r)

/-! ## The step -/

/-- R61, R64, R15: a step runs the decoded instruction. When the bytes at the front of the buffer
decode to an instruction, one step captures exactly its bytes, moving the front past them, and the
next step is the meaning of that instruction; so it is for a frame already captured. -/
def Obligations.StepRunsTheDecodedInstruction : Prop :=
  (∀ (s : State) (i : Instr) (rest : List Byte), s.control = .accumulating →
    decode s.cfg s.buf = .instr i rest →
      ∃ t, step s = .next t ∧ step t = exec i t ∧
        t = { s with
          buf := rest
          pos := s.pos + (encode s.cfg i).length
          frame := some (encode s.cfg i)
          control := .extracting }) ∧
  (∀ (s : State) (F : List Byte) (i : Instr), s.control = .extracting → s.frame = some F →
    decode s.cfg F = .instr i [] → step s = exec i s)

/-- R59, R85, R92: an illegal length empties the buffer, advances the position by the bytes dropped
and reports their number. That it takes two steps, the discard being a step of its own at the label
DESYNC, is the model's reading of R15 (log 1). -/
def Obligations.IllegalLengthDiscardsTheBuffer : Prop :=
  ∀ (s : State) (x len : Byte) (t : List Byte), s.control = .accumulating →
    s.buf = x :: len :: t →
    (len.toNat + 2 < 4 ∨ s.cfg.maxFrameSize < len.toNat + 2) →
      ∃ u, step s = .next u ∧ step u = .next { s with
        buf := []
        pos := s.pos + s.buf.length
        events := s.events ++ [.desyncDiscard s.buf.length]
        frame := none }

/-- The invariant holds after reset. -/
def Obligations.ResetSatisfiesTheInvariant : Prop :=
  State.reset.Inv

/-- R11, R15, R18, R61: every step keeps the invariant: valid parameters, a whole legal frame in the
register exactly while EXTRACTING, an illegal header in the buffer while DESYNC, and every event
raised or delivered with the content its kind prescribes. -/
def Obligations.StepKeepsTheInvariant : Prop :=
  ∀ s t : State, s.Inv → step s = .next t → t.Inv

/-- R6: the block never faults, never sticks and never refuses. -/
def Obligations.StepAlwaysAnswersANextState : Prop :=
  ∀ s : State, s.Inv → ∃ t, step s = .next t

/-- R5, R15, R29 (b): the micro-steps of the machine implement the transaction FEED. From a state
between FEEDs they come, after some number of steps, to the state FEED gives, with its events at the
sink, between FEEDs again. The micro-steps are the reading of R15 (log 1), the queue and the sink's
record the model's own (log 2, log 3). -/
def Obligations.MicroStepsImplementFeed : Prop :=
  ∀ (s : State) (chunk : List Byte) (rest : List Input), s.Idle →
    s.input = .feed chunk :: rest →
      ∃ (n : Nat) (t : State), runSteps n s = .next t ∧ t.Idle ∧
        t = { (s.feed chunk).1 with
          input := rest
          sink := s.sink ++ (s.feed chunk).2 }

/-- R108, D2: the byte-serial realisation raises exactly the events of the FEEDs, for every sequence
of chunks, and at every chunk end holds the buffer's bytes in its register, never more than a frame
register has room for.How D2 is written as a function is the
model's choice (log 13). -/
def Obligations.SerialRealisationRefinesFeed : Prop :=
  ∀ (c : Config) (chunks : List (List Byte)), c.Valid →
    (Serial.run c Serial.reset (chunks.flatMap Beat.ofChunk)).2 =
        (State.feedAll { State.reset with cfg := c } chunks).2 ∧
      (Serial.run c Serial.reset (chunks.flatMap Beat.ofChunk)).1.reg =
        (State.feedAll { State.reset with cfg := c } chunks).1.buf ∧
      (Serial.run c Serial.reset (chunks.flatMap Beat.ofChunk)).1.flushing = false ∧
      (Serial.run c Serial.reset (chunks.flatMap Beat.ofChunk)).1.reg.length < c.maxFrameSize

/-- R108, D2: the beats of one chunk implement FEED, from every pair of a quiescent block and a
byte-serial realisation that holds its buffer, whatever the discard counter: they emit FEED's events
and end so related again, and `rst` and RESET are so related. How D2 is written as a function is the
model's choice (log 13). -/
def Obligations.SerialBeatsOfAChunkImplementFeed : Prop :=
  Serial.reset.Tracks State.reset.buf ∧
    ∀ (t : State) (u : Serial) (chunk : List Byte), Quiescent t.cfg t.buf → u.Tracks t.buf →
      (Serial.run t.cfg u (Beat.ofChunk chunk)).2 = (t.feed chunk).2 ∧
      (Serial.run t.cfg u (Beat.ofChunk chunk)).1.Tracks (t.feed chunk).1.buf ∧
      Quiescent t.cfg (t.feed chunk).1.buf
end

