-- ==== Sys2Proof/Laws/Checksum.lean ====
section
/-! SUPPORT. The checksum's algebra: each bit step and each byte is linear over exclusive-or. -/

namespace Sys2Proof

theorem byte_xor_left_comm (a b c : Byte) : a ^^^ (b ^^^ c) = b ^^^ (a ^^^ c) := by
  rw [← BitVec.xor_assoc, BitVec.xor_comm a b, BitVec.xor_assoc]

theorem crcStep_xor (a b : Byte) : crcStep (a ^^^ b) = crcStep a ^^^ crcStep b := by
  unfold crcStep
  rw [BitVec.getLsbD_xor, BitVec.shiftLeft_xor_distrib]
  cases a.getLsbD 7 <;> cases b.getLsbD 7 <;>
    simp [BitVec.xor_assoc, BitVec.xor_comm, byte_xor_left_comm]

@[simp] theorem crcStep_zero : crcStep 0#8 = 0#8 := by decide

theorem crcByte_xor (a b x y : Byte) :
    crcByte (a ^^^ b) (x ^^^ y) = crcByte a x ^^^ crcByte b y := by
  have h : a ^^^ b ^^^ (x ^^^ y) = a ^^^ x ^^^ (b ^^^ y) := by
    simp [BitVec.xor_assoc, byte_xor_left_comm]
  simp only [crcByte, h, crcStep_xor]

@[simp] theorem crcFrom_nil (c : Byte) : crcFrom c [] = c := rfl

@[simp] theorem crcFrom_cons (c b : Byte) (s : List Byte) :
    crcFrom c (b :: s) = crcFrom (crcByte c b) s := rfl

theorem crcFrom_append (c : Byte) (s t : List Byte) :
    crcFrom c (s ++ t) = crcFrom (crcFrom c s) t := by
  simp [crcFrom]

@[simp] theorem crcByte_zero : crcByte 0#8 0#8 = 0#8 := by decide

/-- A byte equal to the running value brings it to zero. -/
@[simp] theorem crcByte_self (c : Byte) : crcByte c c = 0#8 := by
  simp [crcByte]

end Sys2Proof
end

