-- ==== Sys2Proof/Laws/Decode.lean ====
section
/-! SUPPORT. What the reassembler's decision, the dispatch, the decoder and the encoder say, once each. -/

namespace Sys2Proof

/-! ## The length test -/

theorem legalSize_iff (c : Config) (e : Nat) :
    legalSize c e = true ↔ 4 ≤ e ∧ e ≤ c.maxFrameSize := by
  rw [legalSize, Bool.and_eq_true, decide_eq_true_iff, decide_eq_true_iff]
  rfl

theorem legalSize_false_iff (c : Config) (e : Nat) :
    legalSize c e = false ↔ e < 4 ∨ c.maxFrameSize < e := by
  rw [← Bool.not_eq_true, legalSize_iff]; omega

theorem two_le_expectedLen (len : Byte) : 2 ≤ expectedLen len := by
  unfold expectedLen; omega

theorem expectedLen_le (len : Byte) : expectedLen len ≤ 257 := by
  have := len.isLt; unfold expectedLen; omega

/-! ## The decision of a drain iteration -/

@[simp] theorem boundary_nil (c : Config) : boundary c [] = .needHeader := rfl
@[simp] theorem boundary_singleton (c : Config) (x : Byte) : boundary c [x] = .needHeader := rfl

theorem boundary_cons_cons (c : Config) (x len : Byte) (t : List Byte) :
    boundary c (x :: len :: t) =
      if legalSize c (expectedLen len) then
        if t.length + 2 < expectedLen len then .needBody else .extract (expectedLen len)
      else .desync := by
  simp [boundary]

theorem boundary_eq_needHeader (c : Config) (buf : List Byte) :
    boundary c buf = .needHeader ↔ buf.length < 2 := by
  match buf with
  | [] => simp
  | [_] => simp
  | x :: len :: t => rw [boundary_cons_cons]; split_ifs <;> simp

theorem boundary_eq_desync (c : Config) (buf : List Byte) :
    boundary c buf = .desync ↔
      2 ≤ buf.length ∧ legalSize c (expectedLen (buf.getD 1 0)) = false := by
  match buf with
  | [] => simp
  | [_] => simp
  | x :: len :: t => rw [boundary_cons_cons]; split_ifs <;> simp_all

theorem boundary_eq_needBody (c : Config) (buf : List Byte) :
    boundary c buf = .needBody ↔
      2 ≤ buf.length ∧ legalSize c (expectedLen (buf.getD 1 0)) = true ∧
        buf.length < expectedLen (buf.getD 1 0) := by
  match buf with
  | [] => simp
  | [_] => simp
  | x :: len :: t => rw [boundary_cons_cons]; split_ifs <;> simp_all

theorem boundary_eq_extract (c : Config) (buf : List Byte) (e : Nat) :
    boundary c buf = .extract e ↔
      2 ≤ buf.length ∧ legalSize c (expectedLen (buf.getD 1 0)) = true ∧
        expectedLen (buf.getD 1 0) ≤ buf.length ∧ e = expectedLen (buf.getD 1 0) := by
  match buf with
  | [] => simp
  | [_] => simp
  | x :: len :: t =>
    rw [boundary_cons_cons]
    simp only [List.getD_cons_succ, List.getD_cons_zero, List.length_cons]
    split_ifs with h1 h2
    · simp; omega
    · simp [h1]; omega
    · simp [h1]

/-- An extraction removes at least four bytes, and no more than there are (R63). -/
theorem boundary_extract_size {c : Config} {buf : List Byte} {e : Nat}
    (h : boundary c buf = .extract e) : 4 ≤ e ∧ e ≤ buf.length ∧ e ≤ c.maxFrameSize := by
  obtain ⟨-, hl, he, rfl⟩ := (boundary_eq_extract c buf e).1 h
  have := (legalSize_iff c _).1 hl
  omega

/-- The decision looks at the first `E` bytes only: they are a legal frame by themselves. -/
theorem boundary_take {c : Config} {buf : List Byte} {e : Nat}
    (h : boundary c buf = .extract e) : boundary c (buf.take e) = .extract e := by
  have hs := boundary_extract_size h
  obtain ⟨h2, hl, he, hee⟩ := (boundary_eq_extract c buf e).1 h
  have hg : (buf.take e).getD 1 0 = buf.getD 1 0 := by
    simp only [List.getD_eq_getElem?_getD, List.getElem?_take]
    rw [if_pos (by omega)]
  refine (boundary_eq_extract c _ e).2 ⟨?_, ?_, ?_, ?_⟩
  · simp; omega
  · rw [hg]; exact hl
  · rw [hg, ← hee]; simp; omega
  · rw [hg]; exact hee

/-! ## Dispatch -/

/-- What each row says of the type byte that selects it. -/
theorem rowOfTag_spec (c : Config) (t : Byte) :
    match rowOfTag c t with
    | .gps => t = c.tagGps
    | .vario => t = c.tagVario
    | .battery => t = c.tagBattery
    | .baroAlt => t = c.tagBaroAlt
    | .linkStats => t = c.tagLinkStats
    | .attitude => t = c.tagAttitude
    | .heartbeat => t ∉ c.tags ∧ t = tagHeartbeat
    | .videoTransmitter => t ∉ c.tags ∧ t = tagVideoTransmitter
    | .rcChannelsPacked => t ∉ c.tags ∧ t = tagRcChannelsPacked
    | .flightMode => t ∉ c.tags ∧ t = tagFlightMode
    | .deviceInfo => t ∉ c.tags ∧ t = tagDeviceInfo
    | .configRead => t ∉ c.tags ∧ t = tagConfigRead
    | .configWrite => t ∉ c.tags ∧ t = tagConfigWrite
    | .radioId => t ∉ c.tags ∧ t = tagRadioId
    | .unknown => t ∉ c.tags ∧ t ∉ informativeTags := by
  unfold rowOfTag
  by_cases h1 : t = c.tagGps
  · rw [if_pos h1]; exact h1
  rw [if_neg h1]
  by_cases h2 : t = c.tagVario
  · rw [if_pos h2]; exact h2
  rw [if_neg h2]
  by_cases h3 : t = c.tagBattery
  · rw [if_pos h3]; exact h3
  rw [if_neg h3]
  by_cases h4 : t = c.tagBaroAlt
  · rw [if_pos h4]; exact h4
  rw [if_neg h4]
  by_cases h5 : t = c.tagLinkStats
  · rw [if_pos h5]; exact h5
  rw [if_neg h5]
  by_cases h6 : t = c.tagAttitude
  · rw [if_pos h6]; exact h6
  rw [if_neg h6]
  have hn : t ∉ c.tags := by
    simp only [Config.tags, List.mem_cons, List.not_mem_nil, or_false, not_or]
    exact ⟨h1, h2, h3, h4, h5, h6⟩
  by_cases h7 : t = tagHeartbeat
  · rw [if_pos h7]; exact ⟨hn, h7⟩
  rw [if_neg h7]
  by_cases h8 : t = tagVideoTransmitter
  · rw [if_pos h8]; exact ⟨hn, h8⟩
  rw [if_neg h8]
  by_cases h9 : t = tagRcChannelsPacked
  · rw [if_pos h9]; exact ⟨hn, h9⟩
  rw [if_neg h9]
  by_cases h10 : t = tagFlightMode
  · rw [if_pos h10]; exact ⟨hn, h10⟩
  rw [if_neg h10]
  by_cases h11 : t = tagDeviceInfo
  · rw [if_pos h11]; exact ⟨hn, h11⟩
  rw [if_neg h11]
  by_cases h12 : t = tagConfigRead
  · rw [if_pos h12]; exact ⟨hn, h12⟩
  rw [if_neg h12]
  by_cases h13 : t = tagConfigWrite
  · rw [if_pos h13]; exact ⟨hn, h13⟩
  rw [if_neg h13]
  by_cases h14 : t = tagRadioId
  · rw [if_pos h14]; exact ⟨hn, h14⟩
  rw [if_neg h14]
  refine ⟨hn, ?_⟩
  simp only [informativeTags, List.mem_cons, List.not_mem_nil, or_false, not_or]
  exact ⟨h7, h8, h9, h10, h11, h12, h13, h14⟩

@[simp] theorem dispatch_sync (c : Config) (y t : Byte) (p : List Byte) (k : Byte) :
    (dispatch c y t p k).sync = y := by
  unfold dispatch; cases rowOfTag c t <;> rfl

@[simp] theorem dispatch_payload (c : Config) (y t : Byte) (p : List Byte) (k : Byte) :
    (dispatch c y t p k).payload = p := by
  unfold dispatch; cases rowOfTag c t <;> rfl

@[simp] theorem dispatch_check (c : Config) (y t : Byte) (p : List Byte) (k : Byte) :
    (dispatch c y t p k).check = k := by
  unfold dispatch; cases rowOfTag c t <;> rfl

@[simp] theorem dispatch_mnemonic (c : Config) (y t : Byte) (p : List Byte) (k : Byte) :
    (dispatch c y t p k).mnemonic = rowOfTag c t := by
  unfold dispatch; cases rowOfTag c t <;> rfl

@[simp] theorem dispatch_tag (c : Config) (y t : Byte) (p : List Byte) (k : Byte) :
    (dispatch c y t p k).tag c = t := by
  have h := rowOfTag_spec c t
  unfold dispatch
  cases hr : rowOfTag c t <;> rw [hr] at h <;> simp only at h <;>
    first
      | exact h.symm
      | exact h.2.symm
      | rfl

/-! ## Encode -/

@[simp] theorem frameBytes_length (y t : Byte) (p : List Byte) (k : Byte) :
    (frameBytes y t p k).length = p.length + 4 := by
  simp [frameBytes]

theorem encode_length (c : Config) (i : Instr) : (encode c i).length = i.payload.length + 4 :=
  frameBytes_length _ _ _ _

/-! ## Decode -/

/-- Everything a successful decode says: the bytes are one frame of legal length and the rest. -/
theorem decode_eq_instr {c : Config} {bytes : List Byte} {i : Instr} {rest : List Byte}
    (h : decode c bytes = .instr i rest) :
    ∃ y t p k, i = dispatch c y t p k ∧ bytes = frameBytes y t p k ++ rest ∧
      p.length + 4 ≤ c.maxFrameSize ∧ p.length + 2 < 256 := by
  unfold decode at h
  split at h <;> try cases h
  next e hb =>
    have hs := boundary_extract_size hb
    obtain ⟨-, -, -, hee⟩ := (boundary_eq_extract c bytes e).1 hb
    match bytes, h, hs, hee with
    | y :: len :: t :: body, h, hs, hee =>
      injection h with hi hr
      subst hi hr
      have hlen := len.isLt
      simp only [List.length_cons] at hs
      have he' : e = len.toNat + 2 := by simpa [expectedLen] using hee
      have hp : (body.take (e - 4)).length = e - 4 := by simp; omega
      have hlt : e - 4 < body.length := by omega
      refine ⟨_, _, _, _, rfl, ?_, by omega, by omega⟩
      have hbody : body = body.take (e - 4) ++ body.getD (e - 4) 0 :: body.drop (e - 3) := by
        conv_lhs => rw [← List.take_append_drop (e - 4) body]
        rw [List.drop_eq_getElem_cons hlt, List.getD_eq_getElem _ _ hlt,
          show e - 4 + 1 = e - 3 by omega]
      have hl8 : BitVec.ofNat 8 ((body.take (e - 4)).length + 2) = len := by
        rw [hp, show e - 4 + 2 = len.toNat by omega]
        simp
      simp only [frameBytes, hl8, List.cons_append, List.nil_append, List.append_assoc]
      exact congrArg (fun z => y :: len :: t :: z) hbody

/-- A frame of legal length decodes to what dispatch makes of its type byte. -/
theorem decode_frameBytes (c : Config) (y t : Byte) (p : List Byte) (k : Byte) (rest : List Byte)
    (h1 : p.length + 4 ≤ c.maxFrameSize) (h2 : p.length + 2 < 256) :
    decode c (frameBytes y t p k ++ rest) = .instr (dispatch c y t p k) rest := by
  have hE : expectedLen (BitVec.ofNat 8 (p.length + 2)) = p.length + 4 := by
    simp [expectedLen]; omega
  have hb : boundary c (frameBytes y t p k ++ rest) = .extract (p.length + 4) := by
    simp only [frameBytes, List.cons_append, List.nil_append]
    rw [boundary_cons_cons, hE, if_pos ((legalSize_iff _ _).2 ⟨by omega, h1⟩), if_neg]
    simp
  unfold decode
  rw [hb]
  simp [frameBytes, List.getD_eq_getElem?_getD, List.append_assoc]

end Sys2Proof
end

