-- ==== Sys2Proof/Laws/State.lean ====
section
/-! SUPPORT. One lemma per field per update of the state, so that no proof unfolds a record update. -/

namespace Sys2Proof.Machine.State

@[simp] theorem raise_cfg (s : State) (e : Event) : (s.raise e).cfg = s.cfg := rfl
@[simp] theorem raise_buf (s : State) (e : Event) : (s.raise e).buf = s.buf := rfl
@[simp] theorem raise_pos (s : State) (e : Event) : (s.raise e).pos = s.pos := rfl
@[simp] theorem raise_control (s : State) (e : Event) : (s.raise e).control = .accumulating := rfl
@[simp] theorem raise_frame (s : State) (e : Event) : (s.raise e).frame = none := rfl
@[simp] theorem raise_events (s : State) (e : Event) : (s.raise e).events = s.events ++ [e] := rfl
@[simp] theorem raise_input (s : State) (e : Event) : (s.raise e).input = s.input := rfl
@[simp] theorem raise_sink (s : State) (e : Event) : (s.raise e).sink = s.sink := rfl

@[simp] theorem append_cfg (s : State) (chunk : List Byte) : (s.append chunk).cfg = s.cfg := rfl
@[simp] theorem append_buf (s : State) (chunk : List Byte) :
    (s.append chunk).buf = s.buf ++ chunk := rfl
@[simp] theorem append_pos (s : State) (chunk : List Byte) : (s.append chunk).pos = s.pos := rfl
@[simp] theorem append_control (s : State) (chunk : List Byte) :
    (s.append chunk).control = s.control := rfl
@[simp] theorem append_frame (s : State) (chunk : List Byte) :
    (s.append chunk).frame = s.frame := rfl
@[simp] theorem append_events (s : State) (chunk : List Byte) :
    (s.append chunk).events = s.events := rfl
@[simp] theorem append_input (s : State) (chunk : List Byte) :
    (s.append chunk).input = s.input := rfl
@[simp] theorem append_sink (s : State) (chunk : List Byte) : (s.append chunk).sink = s.sink := rfl

@[simp] theorem capture_cfg (s : State) (n : Nat) : (s.capture n).cfg = s.cfg := rfl
@[simp] theorem capture_buf (s : State) (n : Nat) : (s.capture n).buf = s.buf.drop n := rfl
@[simp] theorem capture_pos (s : State) (n : Nat) : (s.capture n).pos = s.pos + n := rfl
@[simp] theorem capture_control (s : State) (n : Nat) : (s.capture n).control = .extracting := rfl
@[simp] theorem capture_frame (s : State) (n : Nat) :
    (s.capture n).frame = some (s.buf.take n) := rfl
@[simp] theorem capture_events (s : State) (n : Nat) : (s.capture n).events = s.events := rfl
@[simp] theorem capture_input (s : State) (n : Nat) : (s.capture n).input = s.input := rfl
@[simp] theorem capture_sink (s : State) (n : Nat) : (s.capture n).sink = s.sink := rfl

@[simp] theorem discard_cfg (s : State) : (s.discard).cfg = s.cfg := rfl
@[simp] theorem discard_buf (s : State) : (s.discard).buf = [] := rfl
@[simp] theorem discard_pos (s : State) : (s.discard).pos = s.pos + s.buf.length := rfl
@[simp] theorem discard_control (s : State) : (s.discard).control = .accumulating := rfl
@[simp] theorem discard_frame (s : State) : (s.discard).frame = none := rfl
@[simp] theorem discard_events (s : State) :
    (s.discard).events = s.events ++ [.desyncDiscard s.buf.length] := rfl
@[simp] theorem discard_input (s : State) : (s.discard).input = s.input := rfl
@[simp] theorem discard_sink (s : State) : (s.discard).sink = s.sink := rfl

@[simp] theorem doReset_cfg (s : State) : (s.doReset).cfg = s.cfg := rfl
@[simp] theorem doReset_buf (s : State) : (s.doReset).buf = [] := rfl
@[simp] theorem doReset_pos (s : State) : (s.doReset).pos = 0 := rfl
@[simp] theorem doReset_control (s : State) : (s.doReset).control = .accumulating := rfl
@[simp] theorem doReset_frame (s : State) : (s.doReset).frame = none := rfl
@[simp] theorem doReset_events (s : State) : (s.doReset).events = [] := rfl
@[simp] theorem doReset_input (s : State) : (s.doReset).input = s.input := rfl
@[simp] theorem doReset_sink (s : State) : (s.doReset).sink = s.sink := rfl

@[simp] theorem handOver_cfg (s : State) : (s.handOver).cfg = s.cfg := rfl
@[simp] theorem handOver_buf (s : State) : (s.handOver).buf = s.buf := rfl
@[simp] theorem handOver_pos (s : State) : (s.handOver).pos = s.pos := rfl
@[simp] theorem handOver_control (s : State) : (s.handOver).control = s.control := rfl
@[simp] theorem handOver_frame (s : State) : (s.handOver).frame = s.frame := rfl
@[simp] theorem handOver_events (s : State) : (s.handOver).events = [] := rfl
@[simp] theorem handOver_input (s : State) : (s.handOver).input = s.input := rfl
@[simp] theorem handOver_sink (s : State) : (s.handOver).sink = s.sink ++ s.events := rfl

@[simp] theorem withFetchWord_cfg (s : State) (nbits w : Nat) :
    (s.withFetchWord nbits w).cfg = s.cfg := rfl
@[simp] theorem withFetchWord_buf (s : State) (nbits w : Nat) :
    (s.withFetchWord nbits w).buf = s.buf := rfl
@[simp] theorem withFetchWord_pos (s : State) (nbits w : Nat) :
    (s.withFetchWord nbits w).pos = s.pos := rfl
@[simp] theorem withFetchWord_control (s : State) (nbits w : Nat) :
    (s.withFetchWord nbits w).control = .extracting := rfl
@[simp] theorem withFetchWord_frame (s : State) (nbits w : Nat) :
    (s.withFetchWord nbits w).frame = some (tableFrame s.cfg nbits w) := rfl
@[simp] theorem withFetchWord_events (s : State) (nbits w : Nat) :
    (s.withFetchWord nbits w).events = s.events := rfl
@[simp] theorem withFetchWord_input (s : State) (nbits w : Nat) :
    (s.withFetchWord nbits w).input = s.input := rfl
@[simp] theorem withFetchWord_sink (s : State) (nbits w : Nat) :
    (s.withFetchWord nbits w).sink = s.sink := rfl

end Sys2Proof.Machine.State
end

