-- ==== Sys2Proof/Laws/Exec.lean ====
section
/-! SUPPORT. What the shared operations behind the meanings say: raise, validate, the checksum on a frame built from its parts, and the one shape of every meaning. -/

namespace Sys2Proof.Machine

/-! ## The parts of a frame built by `frameBytes` -/

@[simp] theorem coveredRange_frameBytes (y t : Byte) (p : List Byte) (k : Byte) :
    coveredRange (frameBytes y t p k) = t :: p := by
  show (([t] ++ p) ++ [k]).dropLast = _
  rw [List.dropLast_concat]; rfl

@[simp] theorem payloadOf_frameBytes (y t : Byte) (p : List Byte) (k : Byte) :
    payloadOf (frameBytes y t p k) = p := by
  show (p ++ [k]).dropLast = _
  rw [List.dropLast_concat]

@[simp] theorem plen_frameBytes (y t : Byte) (p : List Byte) (k : Byte) :
    plen (frameBytes y t p k) = p.length := by
  simp [plen]

@[simp] theorem getD_two_frameBytes (y t : Byte) (p : List Byte) (k : Byte) :
    (frameBytes y t p k).getD 2 0 = t := by
  simp [frameBytes]

/-- VALIDATE on a frame built from its parts: the checksum byte is the checksum of type and
payload (R65). -/
theorem validate_frameBytes (y t : Byte) (p : List Byte) (k : Byte) :
    validate (frameBytes y t p k) = (crc8 (t :: p) == k) := by
  have hl : (frameBytes y t p k).getLastD 0 = k := by
    rw [frameBytes, List.getLastD_concat]
  rw [validate, coveredRange_frameBytes, hl]

@[simp] theorem validate_mkframeSync (y t : Byte) (p : List Byte) :
    validate (mkframeSync y t p) = true := by
  simp [mkframeSync, validate_frameBytes]

/-! ## The verdict -/

theorem validatedEvent_of_match {F : List Byte} (h : validate F = true) (e : Event) :
    validatedEvent F e = e := by
  simp [validatedEvent, h]

theorem validatedEvent_of_mismatch {F : List Byte} (h : validate F = false) (e : Event) :
    validatedEvent F e = .checksumError F := by
  simp [validatedEvent, h]

/-! ## The truncation check and the record -/

theorem decodedEvent_of_short {req : Nat} {F : List Byte} (h : plen F < req)
    (r : Option Record) (t : Byte) : decodedEvent req r t F = .truncatedPayload t F := by
  have ht : truncated req F = true := decide_eq_true h
  simp [decodedEvent, ht]

theorem decodedEvent_of_long {req : Nat} {F : List Byte} (h : req ≤ plen F)
    (r : Record) (t : Byte) : decodedEvent req (some r) t F = .decodedRecord t r := by
  have ht : truncated req F = false := decide_eq_false (by omega)
  simp [decodedEvent, ht]

/-! ## The shape of every meaning -/

/-- The event a decoder row gives a frame, its checksum apart. -/
def rowEvent (c : Config) (row : Mnemonic) (tag : Byte) (F : List Byte) : Event :=
  match row with
  | .gps => decodedEvent (requiredLen c .gps) (gpsRecord F) tag F
  | .vario => decodedEvent (requiredLen c .vario) (varioRecord F) tag F
  | .battery => decodedEvent (requiredLen c .battery) (batteryRecord F) tag F
  | .baroAlt => decodedEvent (requiredLen c .baroAlt) (baroAltRecord F) tag F
  | .linkStats => decodedEvent (requiredLen c .linkStats) (linkStatsRecord c F) tag F
  | .attitude => decodedEvent (requiredLen c .attitude) (attitudeRecord F) tag F
  | _ => .unknownType tag F

/-- A decoded type's frame with its correct checksum. -/
theorem runDecoded_match (row : Mnemonic) (record : List Byte → Option Record) (y t : Byte)
    (p : List Byte) (s : State) :
    runDecoded row record y t p (crc8 (t :: p)) s =
      .next (s.raise (decodedEvent (requiredLen s.cfg row) (record (mkframeSync y t p)) t
        (mkframeSync y t p))) := by
  have h := validate_mkframeSync y t p
  exact congrArg (fun e => Host.Outcome.next (s.raise e)) (validatedEvent_of_match h _)

/-- An undecoded type's frame with its correct checksum. -/
theorem runUndecoded_match (y t : Byte) (p : List Byte) (s : State) :
    runUndecoded y t p (crc8 (t :: p)) s =
      .next (s.raise (.unknownType t (mkframeSync y t p))) := by
  have h := validate_mkframeSync y t p
  exact congrArg (fun e => Host.Outcome.next (s.raise e)) (validatedEvent_of_match h _)

@[simp] theorem plen_mkframeSync (y t : Byte) (p : List Byte) :
    plen (mkframeSync y t p) = p.length :=
  plen_frameBytes _ _ _ _

/-- Every meaning validates the frame and raises the event of its row. -/
theorem exec_eq (i : Instr) (s : State) :
    exec i s = .next (s.raise (validatedEvent (encode s.cfg i)
      (rowEvent s.cfg i.mnemonic (i.tag s.cfg) (encode s.cfg i)))) := by
  cases i <;> rfl

end Sys2Proof.Machine
end

