-- ==== Sys2Proof/Laws/Operands.lean ====
section
/-! SUPPORT. What the operand reads say: MemRead over the payload, the width of its value, and its signed readings as bit vectors. -/

namespace Sys2Proof.Machine

/-! ## Big-endian values -/

theorem bigEndian_append_singleton (l : List Byte) (b : Byte) :
    bigEndian (l ++ [b]) = bigEndian l * 256 + b.toNat := by
  simp [bigEndian]

theorem bigEndian_lt (l : List Byte) : bigEndian l < 256 ^ l.length := by
  induction l using List.reverseRecOn with
  | nil => simp [bigEndian]
  | append_singleton l b ih =>
    have := b.isLt
    rw [bigEndian_append_singleton, List.length_append, List.length_singleton, pow_succ]
    omega

/-! ## MemRead -/

theorem memRead_eq_none {F : List Byte} {o k : Nat} :
    memRead F o k = none ↔ plen F < o + k := by
  simp [memRead]

theorem memRead_eq_some {F : List Byte} {o k v : Nat} :
    memRead F o k = some v ↔ o + k ≤ plen F ∧ v = bigEndian ((F.drop (3 + o)).take k) := by
  simp [memRead, eq_comm]

/-- A value read from `k` bytes fits `8k` bits (R24). -/
theorem memRead_lt {F : List Byte} {o k v : Nat} (h : memRead F o k = some v) : v < 256 ^ k := by
  obtain ⟨hb, rfl⟩ := memRead_eq_some.1 h
  refine lt_of_lt_of_le (bigEndian_lt _) (Nat.pow_le_pow_right (by omega) ?_)
  simp

/-- MemRead on a frame built from its parts reads the payload (R69). -/
theorem memRead_frameBytes (y t : Byte) (p : List Byte) (c : Byte) (o k : Nat) :
    memRead (frameBytes y t p c) o k =
      if o + k ≤ p.length then some (bigEndian ((p.drop o).take k)) else none := by
  unfold memRead
  rw [plen_frameBytes]
  split_ifs with h
  · have : (frameBytes y t p c).drop (3 + o) = (p ++ [c]).drop o := by
      rw [← List.drop_drop]; rfl
    rw [this, List.drop_append_of_le_length (by omega), List.take_append_of_le_length (by simp; omega)]
  · rfl

/-! ## Signed readings -/

/-- `sext` of a value below `2^n` fits `n` bits of two's complement. -/
theorem sext_fits {n v : Nat} (hn : 0 < n) (h : v < 2 ^ n) : FitsSigned n (sext n v) := by
  obtain ⟨m, rfl⟩ : ∃ m, n = m + 1 := ⟨n - 1, by omega⟩
  have hp : (2 : Nat) ^ (m + 1) = 2 * 2 ^ m := by rw [pow_succ]; omega
  have hz : (2 : Int) ^ (m + 1) = 2 * 2 ^ m := by rw [pow_succ]; ring
  have hc : ((2 ^ m : Nat) : Int) = (2 : Int) ^ m := by push_cast; rfl
  have hpos : (0 : Int) < 2 ^ m := by positivity
  unfold FitsSigned sext
  simp only [Nat.add_sub_cancel]
  rw [hz]
  split_ifs with hv <;> constructor <;> omega

/-- `sext` reads a bit vector's number as its two's-complement integer. -/
theorem sext_toNat {n : Nat} (hn : 0 < n) (x : BitVec n) : sext n x.toNat = x.toInt := by
  obtain ⟨m, rfl⟩ : ∃ m, n = m + 1 := ⟨n - 1, by omega⟩
  have hp : (2 : Nat) ^ (m + 1) = 2 * 2 ^ m := by rw [pow_succ]; omega
  rw [BitVec.toInt_eq_toNat_cond]
  unfold sext
  simp only [Nat.add_sub_cancel, hp]
  split_ifs <;> first | rfl | omega | (push_cast [hp]; rw [pow_succ]; ring)

/-! ## Concatenated bytes -/

theorem toNat_append_byte {n : Nat} (x : BitVec n) (b : Byte) :
    (x ++ b).toNat = x.toNat * 256 + b.toNat := by
  rw [BitVec.toNat_append, ← Nat.shiftLeft_add_eq_or_of_lt b.isLt, Nat.shiftLeft_eq]

theorem bigEndian_one (a : Byte) : bigEndian [a] = a.toNat := by
  simp [bigEndian]

theorem bigEndian_two (a b : Byte) : bigEndian [a, b] = (a ++ b : BitVec 16).toNat := by
  rw [toNat_append_byte]; simp [bigEndian]

theorem bigEndian_three (a b c : Byte) :
    bigEndian [a, b, c] = (a ++ b ++ c : BitVec 24).toNat := by
  rw [toNat_append_byte, toNat_append_byte]; simp [bigEndian]

theorem bigEndian_four (a b c d : Byte) :
    bigEndian [a, b, c, d] = (a ++ b ++ c ++ d : BitVec 32).toNat := by
  rw [toNat_append_byte, toNat_append_byte, toNat_append_byte]; simp [bigEndian]

end Sys2Proof.Machine
end

