-- ==== Sys2Proof/Laws/Reassembler.lean ====
section
/-! SUPPORT. What DRAIN says: its fuel never runs out, its one equation, and the induction over its iterations, once. -/

namespace Sys2Proof.Machine

/-- The pass after one extraction (R61). -/
def Pass.extracted (c : Config) (p : Pass) (e : Nat) : Pass where
  buf := p.buf.drop e
  pos := p.pos + e
  events := p.events ++ [processEvent c (p.buf.take e)]

/-- The pass after a discard (R59). -/
def Pass.discarded (p : Pass) : Pass where
  buf := []
  pos := p.pos + p.buf.length
  events := p.events ++ [.desyncDiscard p.buf.length]

theorem drain_succ (c : Config) (n : Nat) (p : Pass) :
    drain c (n + 1) p =
      match boundary c p.buf with
      | .needHeader => p
      | .desync => p.discarded
      | .needBody => p
      | .extract e => drain c n (p.extracted c e) := rfl

/-- More fuel than the buffer has bytes changes nothing (R63). -/
theorem drain_fuel (c : Config) (n m : Nat) (p : Pass) (hn : p.buf.length < n)
    (hm : p.buf.length < m) : drain c n p = drain c m p := by
  induction n generalizing m p with
  | zero => omega
  | succ n ih =>
    obtain ⟨m, rfl⟩ : ∃ m', m = m' + 1 := ⟨m - 1, by omega⟩
    rw [drain_succ, drain_succ]
    cases hb : boundary c p.buf with
    | needHeader => rfl
    | desync => rfl
    | needBody => rfl
    | extract e =>
      have := boundary_extract_size hb
      have hl : (p.extracted c e).buf.length = p.buf.length - e := by simp [Pass.extracted]
      exact ih m _ (by omega) (by omega)

/-- The one equation of DRAIN (R57). -/
theorem drainAll_eq (c : Config) (p : Pass) :
    drainAll c p =
      match boundary c p.buf with
      | .needHeader => p
      | .desync => p.discarded
      | .needBody => p
      | .extract e => drainAll c (p.extracted c e) := by
  conv_lhs => rw [drainAll, drain_succ]
  cases hb : boundary c p.buf with
  | needHeader => rfl
  | desync => rfl
  | needBody => rfl
  | extract e =>
    have := boundary_extract_size hb
    have hl : (p.extracted c e).buf.length = p.buf.length - e := by simp [Pass.extracted]
    exact drain_fuel c _ _ _ (by omega) (by omega)

/-- The induction over the iterations of DRAIN: a fact about a pass and what it drains to holds if it
holds where the loop stops, where it discards, and before an extraction when it holds after it. -/
theorem drainAll_induct {c : Config} {motive : Pass → Pass → Prop}
    (stop : ∀ p, boundary c p.buf = .needHeader ∨ boundary c p.buf = .needBody → motive p p)
    (discard : ∀ p, boundary c p.buf = .desync → motive p p.discarded)
    (extract : ∀ p e, boundary c p.buf = .extract e →
      motive (p.extracted c e) (drainAll c (p.extracted c e)) →
        motive p (drainAll c (p.extracted c e)))
    (p : Pass) : motive p (drainAll c p) := by
  generalize hn : p.buf.length = n
  induction n using Nat.strong_induction_on generalizing p with
  | _ n ih =>
    rw [drainAll_eq]
    cases hb : boundary c p.buf with
    | needHeader => exact stop p (.inl hb)
    | desync => exact discard p hb
    | needBody => exact stop p (.inr hb)
    | extract e =>
      have := boundary_extract_size hb
      have hl : (p.extracted c e).buf.length = p.buf.length - e := by simp [Pass.extracted]
      exact extract p e hb (ih _ (by omega) _ rfl)

/-- Quiescent is where the drain loop stops (R62 (a)). -/
theorem quiescent_iff (c : Config) (buf : List Byte) :
    Quiescent c buf ↔ boundary c buf = .needHeader ∨ boundary c buf = .needBody := by
  rw [boundary_eq_needHeader, boundary_eq_needBody]
  unfold Quiescent
  constructor
  · rintro (h | h)
    · exact .inl h
    · by_cases h2 : buf.length < 2
      · exact .inl h2
      · exact .inr ⟨by omega, h⟩
  · rintro (h | ⟨-, h⟩)
    · exact .inl h
    · exact .inr h

end Sys2Proof.Machine
end

