-- ==== Sys2Proof/Laws/Ops.lean ====
section
/-! SUPPORT. What a step can do, said once; the reads of the stream; the canonical form of the buffer's cells. -/

namespace Sys2Proof.Machine

/-! ## The reads of the stream -/

theorem streamByte_of_le {s : State} {a : Nat} (h : s.pos ≤ a) :
    s.streamByte a = s.buf[a - s.pos]? := if_pos h

theorem streamByte_of_lt {s : State} {a : Nat} (h : a < s.pos) : s.streamByte a = none :=
  if_neg (by omega)

/-- The read depends on the position and the buffer alone. -/
theorem streamByte_congr {s t : State} (hp : t.pos = s.pos) (hb : t.buf = s.buf) (a : Nat) :
    t.streamByte a = s.streamByte a := by
  by_cases h : s.pos ≤ a
  · rw [streamByte_of_le h, streamByte_of_le (hp ▸ h), hp, hb]
  · rw [streamByte_of_lt (by omega), streamByte_of_lt (by omega)]

/-- Every state's buffer is in canonical form as cells of the stream, so every operation keeps it:
the form follows from the buffer being a sequence. -/
theorem cells_wf (s : State) : Memory.wf s.cells = true := by
  rw [Memory.wf, decide_eq_true_iff, State.cells, List.pairwise_iff_getElem]
  intro i j hi hj hij
  simpa using hij

/-- The cells hold exactly the stream bytes that are in the buffer. -/
theorem mem_cells_iff (s : State) (a : Nat) (b : Byte) :
    (a, b) ∈ s.cells ↔ s.streamByte a = some b := by
  simp only [State.cells, List.mem_mapIdx, Prod.mk.injEq]
  constructor
  · rintro ⟨i, hi, rfl, rfl⟩
    rw [streamByte_of_le (by omega)]
    simp [hi]
  · intro h
    by_cases hp : s.pos ≤ a
    · rw [streamByte_of_le hp] at h
      obtain ⟨hi, hb⟩ := List.getElem?_eq_some_iff.1 h
      exact ⟨a - s.pos, hi, by omega, hb⟩
    · rw [streamByte_of_lt (by omega)] at h; cases h

/-! ## What a step can do -/

/-- Everything the end of a drain pass can be: waiting, a chunk, a RESET, or the hand-over. -/
theorem endPass_cases (s : State) :
    (s.events = [] ∧ s.input = [] ∧ s.endPass = s) ∨
    (∃ chunk rest, s.events = [] ∧ s.input = .feed chunk :: rest ∧
      s.endPass = State.append { s with input := rest } chunk) ∨
    (∃ rest, s.events = [] ∧ s.input = .reset :: rest ∧
      s.endPass = State.doReset { s with input := rest }) ∨
    (s.events ≠ [] ∧ s.endPass = s.handOver) := by
  by_cases he : s.events = []
  · have hp : s.endPass = s.acceptInput := by simp [State.endPass, he]
    rw [hp]
    unfold State.acceptInput
    match hi : s.input with
    | [] => exact .inl ⟨he, rfl, rfl⟩
    | .feed chunk :: rest => exact .inr (.inl ⟨chunk, rest, he, rfl, rfl⟩)
    | .reset :: rest => exact .inr (.inr (.inl ⟨rest, he, rfl, rfl⟩))
  · exact .inr (.inr (.inr ⟨he, by simp [State.endPass, he]⟩))

/-- Everything a step at ACCUMULATING can do (R57, R15). -/
theorem accumulate_cases (s : State) :
    (Quiescent s.cfg s.buf ∧ s.accumulate = s.endPass) ∨
    (boundary s.cfg s.buf = .desync ∧ s.accumulate = { s with control := .desync }) ∨
    (∃ e, boundary s.cfg s.buf = .extract e ∧ s.accumulate = s.capture e) := by
  have hq := quiescent_iff s.cfg s.buf
  unfold State.accumulate
  cases hb : boundary s.cfg s.buf with
  | needHeader => exact .inl ⟨hq.2 (.inl hb), rfl⟩
  | desync => exact .inr (.inl ⟨rfl, rfl⟩)
  | needBody => exact .inl ⟨hq.2 (.inr hb), rfl⟩
  | extract e => exact .inr (.inr ⟨e, rfl, rfl⟩)

/-- Everything a step that answers a next state did. -/
theorem step_cases {s t : State} (h : step s = .next t) :
    (s.control = .accumulating ∧ t = s.accumulate) ∨
    (s.control = .desync ∧ t = s.discard) ∨
    (s.control = .extracting ∧ ∃ i, s.fetch = some i ∧ exec i s = .next t) := by
  unfold step at h
  cases hc : s.control <;> rw [hc] at h <;> simp only at h
  · injection h with h
    exact .inl ⟨rfl, h.symm⟩
  · cases hf : s.fetch <;> rw [hf] at h <;> simp only at h
    · cases h
    · exact .inr (.inr ⟨rfl, _, rfl, h⟩)
  · injection h with h
    exact .inr (.inl ⟨rfl, h.symm⟩)

theorem step_accumulating {s : State} (h : s.control = .accumulating) :
    step s = .next s.accumulate := by
  unfold step; rw [h]

theorem step_desync {s : State} (h : s.control = .desync) : step s = .next s.discard := by
  unfold step; rw [h]

theorem step_extracting {s : State} {i : Instr} (h : s.control = .extracting)
    (hf : s.fetch = some i) : step s = exec i s := by
  unfold step; rw [h]; simp only [hf]

@[simp] theorem runSteps_zero (s : State) : runSteps 0 s = .next s := rfl

theorem runSteps_succ {s t : State} (h : step s = .next t) (n : Nat) :
    runSteps (n + 1) s = runSteps n t := by
  rw [runSteps, h]

theorem core_run_succ (M : Host.Core) (n : Nat) (s : M.State) :
    M.run (n + 1) s =
      match M.step s with
      | .next t => M.run n t
      | .fault r => .fault r
      | .refused r => .refused r := by
  cases h : M.step s <;> simp only [Host.Core.run, h]

/-- The runs of the claims are the runs of the host's machine. -/
theorem core_run_eq_runSteps (n : Nat) (s : State) :
    Host.Core.run Sys2Proof.core n s = runSteps n s := by
  induction n generalizing s with
  | zero => rfl
  | succ n ih =>
    have h1 := core_run_succ Sys2Proof.core n s
    have h2 : Sys2Proof.core.step s = step s := rfl
    rw [h2] at h1
    rw [runSteps]
    cases hs : step s with
    | next t => rw [hs] at h1; exact h1.trans (ih t)
    | fault r => rw [hs] at h1; exact h1
    | refused r => rw [hs] at h1; exact h1

/-- The fetch reads the frame register (R11). -/
theorem fetch_eq_some {s : State} {i : Instr} :
    s.fetch = some i ↔ ∃ F, s.frame = some F ∧ decode s.cfg F = .instr i [] := by
  unfold State.fetch
  cases hF : s.frame with
  | none => simp
  | some F =>
    cases hd : decode s.cfg F with
    | instr j rest => cases rest <;> simp [hd, eq_comm]
    | _ => simp [hd]

/-- The quiescent machine ends its pass. -/
theorem step_quiescent {s : State} (h : s.control = .accumulating) (hq : Quiescent s.cfg s.buf) :
    step s = .next s.endPass := by
  rw [step_accumulating h]
  rcases (quiescent_iff _ _).1 hq with hb | hb <;> simp [State.accumulate, hb]

end Sys2Proof.Machine
end

