-- ==== Sys2Proof/Laws/PerInstr.lean ====
section
/-! SUPPORT. Statements made per instruction: the shape of every instruction's encoding. -/

namespace Sys2Proof.Laws.EncodeShape

/-- The frame of `i` has four bytes beside its payload; sync and type byte stand at offsets 0 and 2,
the length byte counts what follows it, and the payload begins at offset 3 (30_encoding.md R34,
R35, R38). -/
def Statement (i : Instr) : Prop :=
  ∀ c : Config,
    (encode c i).length = i.payload.length + 4 ∧
    (encode c i)[0]? = some i.sync ∧
    (encode c i)[1]? = some (BitVec.ofNat 8 (i.payload.length + 2)) ∧
    (encode c i)[2]? = some (i.tag c) ∧
    (encode c i).drop 3 = i.payload ++ [i.check]

/-- Every encoding is a frame of the one format, whatever the row. -/
theorem of_format (i : Instr) : Statement i :=
  fun c => ⟨encode_length c i, rfl, rfl, rfl, rfl⟩

theorem gps (y : Byte) (p : List Byte) (k : Byte) : Statement (.gps y p k) := of_format _
theorem vario (y : Byte) (p : List Byte) (k : Byte) : Statement (.vario y p k) := of_format _
theorem battery (y : Byte) (p : List Byte) (k : Byte) : Statement (.battery y p k) := of_format _
theorem baroAlt (y : Byte) (p : List Byte) (k : Byte) : Statement (.baroAlt y p k) := of_format _
theorem linkStats (y : Byte) (p : List Byte) (k : Byte) : Statement (.linkStats y p k) :=
  of_format _
theorem attitude (y : Byte) (p : List Byte) (k : Byte) : Statement (.attitude y p k) := of_format _
theorem heartbeat (y : Byte) (p : List Byte) (k : Byte) : Statement (.heartbeat y p k) :=
  of_format _
theorem videoTransmitter (y : Byte) (p : List Byte) (k : Byte) :
    Statement (.videoTransmitter y p k) := of_format _
theorem rcChannelsPacked (y : Byte) (p : List Byte) (k : Byte) :
    Statement (.rcChannelsPacked y p k) := of_format _
theorem flightMode (y : Byte) (p : List Byte) (k : Byte) : Statement (.flightMode y p k) :=
  of_format _
theorem deviceInfo (y : Byte) (p : List Byte) (k : Byte) : Statement (.deviceInfo y p k) :=
  of_format _
theorem configRead (y : Byte) (p : List Byte) (k : Byte) : Statement (.configRead y p k) :=
  of_format _
theorem configWrite (y : Byte) (p : List Byte) (k : Byte) : Statement (.configWrite y p k) :=
  of_format _
theorem radioId (y : Byte) (p : List Byte) (k : Byte) : Statement (.radioId y p k) := of_format _
theorem unknown (y t : Byte) (p : List Byte) (k : Byte) : Statement (.unknown y t p k) :=
  of_format _

end Sys2Proof.Laws.EncodeShape
end

