-- ==== Sys2Proof/Tests/Slice0.lean ====
section
/-! SUPPORT. Tests of the model, their expected results taken from the spec (95_test_vectors.md, the tables of 40_checksum.md) or worked out by hand from its rules; and a witness for the hypotheses of every statement. -/

namespace Sys2Proof.Tests

open Sys2Proof Sys2Proof.Machine

set_option Elab.async false

/-! ## Well-formedness: each check refuses an ill-formed term -/

/-- One instruction of each row whose constructor carries no type byte, with this payload. -/
def everyRow (p : List Byte) : List Instr :=
  [.gps 0xC8 p 0, .vario 0xC8 p 0, .battery 0xC8 p 0, .baroAlt 0xC8 p 0, .linkStats 0xC8 p 0,
    .attitude 0xC8 p 0, .heartbeat 0xC8 p 0, .videoTransmitter 0xC8 p 0, .rcChannelsPacked 0xC8 p 0,
    .flightMode 0xC8 p 0, .deviceInfo 0xC8 p 0, .configRead 0xC8 p 0, .configWrite 0xC8 p 0,
    .radioId 0xC8 p 0, .unknown 0xC8 0xFF p 0]

/-- R38: 61 payload bytes do not fit a frame of at most 64 bytes, in any row. -/
theorem test_wf_refuses_long_payload :
    (everyRow (List.replicate 61 0x00)).all (fun i => !WellFormed Config.reference i) = true := by
  decide

/-- R38: 60 payload bytes, and none at all, do fit. -/
theorem test_wf_accepts_payload_bounds :
    (everyRow (List.replicate 60 0x00) ++ everyRow []).all (WellFormed Config.reference) = true := by
  decide

/-- R41: a named type without a decoder is none of the six tag parameters; where a parameter takes
its value, the decoded row has the byte. -/
theorem test_wf_refuses_named_type_with_decoded_tag :
    [(tagHeartbeat, Instr.heartbeat 0xC8 [] 0), (tagVideoTransmitter, .videoTransmitter 0xC8 [] 0),
      (tagRcChannelsPacked, .rcChannelsPacked 0xC8 [] 0), (tagFlightMode, .flightMode 0xC8 [] 0),
      (tagDeviceInfo, .deviceInfo 0xC8 [] 0), (tagConfigRead, .configRead 0xC8 [] 0),
      (tagConfigWrite, .configWrite 0xC8 [] 0), (tagRadioId, .radioId 0xC8 [] 0)].all
      (fun x => !WellFormed { Config.reference with tagVario := x.1 } x.2) = true := by
  decide

/-- R46: the catch-all row takes no type byte that an earlier row matches. -/
theorem test_wf_refuses_catch_all_with_decoded_tag :
    Config.reference.tags.all (fun t => !WellFormed Config.reference (.unknown 0xC8 t [] 0)) =
      true := by
  decide

theorem test_wf_refuses_catch_all_with_informative_tag :
    informativeTags.all (fun t => !WellFormed Config.reference (.unknown 0xC8 t [] 0)) = true := by
  decide

/-- R8: the reference parameters are valid. -/
theorem test_reference_parameters_valid : Config.reference.Valid := by decide

/-! ## Decoding: one word per constructor, written out from the frame format of R34 -/

/-- VEC-DEC-1. -/
theorem test_decode_gps :
    decode Config.reference
      [0xC8, 0x11, 0x02, 0x1D, 0xE0, 0x3B, 0x87, 0xFF, 0xED, 0x29, 0x79, 0x01, 0x68, 0x46, 0x50, 0x04, 0x4C, 0x0C, 0xF3] =
      .instr (.gps 0xC8 [0x1D, 0xE0, 0x3B, 0x87, 0xFF, 0xED, 0x29, 0x79, 0x01, 0x68, 0x46, 0x50, 0x04, 0x4C, 0x0C] 0xF3) [] := by decide

/-- VEC-DEC-5. -/
theorem test_decode_vario :
    decode Config.reference
      [0xC8, 0x04, 0x07, 0xFF, 0xE7, 0xD9] =
      .instr (.vario 0xC8 [0xFF, 0xE7] 0xD9) [] := by decide

/-- S2. -/
theorem test_decode_battery :
    decode Config.reference
      [0xC8, 0x0A, 0x08, 0x00, 0x96, 0x00, 0x32, 0x00, 0x01, 0x2C, 0x50, 0x0C] =
      .instr (.battery 0xC8 [0x00, 0x96, 0x00, 0x32, 0x00, 0x01, 0x2C, 0x50] 0x0C) [] := by decide

/-- VEC-DEC-16. -/
theorem test_decode_baroAlt :
    decode Config.reference
      [0xC8, 0x06, 0x09, 0x00, 0x00, 0x30, 0x39, 0x22] =
      .instr (.baroAlt 0xC8 [0x00, 0x00, 0x30, 0x39] 0x22) [] := by decide

/-- VEC-DEC-17. -/
theorem test_decode_linkStats :
    decode Config.reference
      [0xC8, 0x0C, 0x14, 0xA6, 0x80, 0x63, 0xFB, 0x00, 0x00, 0x00, 0x00, 0x00, 0x00, 0x87] =
      .instr (.linkStats 0xC8 [0xA6, 0x80, 0x63, 0xFB, 0x00, 0x00, 0x00, 0x00, 0x00, 0x00] 0x87) [] := by decide

/-- S1. -/
theorem test_decode_attitude :
    decode Config.reference
      [0xC8, 0x08, 0x1E, 0x03, 0xE8, 0xFE, 0x0C, 0x00, 0xFA, 0x4F] =
      .instr (.attitude 0xC8 [0x03, 0xE8, 0xFE, 0x0C, 0x00, 0xFA] 0x4F) [] := by decide

/-- VEC-DEC-14. -/
theorem test_decode_heartbeat :
    decode Config.reference
      [0xC8, 0x04, 0x0B, 0x00, 0xEA, 0x36] =
      .instr (.heartbeat 0xC8 [0x00, 0xEA] 0x36) [] := by decide

/-- no payload; checksum `T[0F]` of R52. -/
theorem test_decode_videoTransmitter :
    decode Config.reference
      [0xC8, 0x02, 0x0F, 0x7D] =
      .instr (.videoTransmitter 0xC8 [] 0x7D) [] := by decide

/-- no payload; checksum `T[16]` of R52. -/
theorem test_decode_rcChannelsPacked :
    decode Config.reference
      [0xC8, 0x02, 0x16, 0xD3] =
      .instr (.rcChannelsPacked 0xC8 [] 0xD3) [] := by decide

/-- no payload; checksum `T[21]` of R52. -/
theorem test_decode_flightMode :
    decode Config.reference
      [0xC8, 0x02, 0x21, 0x71] =
      .instr (.flightMode 0xC8 [] 0x71) [] := by decide

/-- no payload; checksum `T[29]` of R52. -/
theorem test_decode_deviceInfo :
    decode Config.reference
      [0xC8, 0x02, 0x29, 0x58] =
      .instr (.deviceInfo 0xC8 [] 0x58) [] := by decide

/-- no payload; checksum `T[2C]` of R52. -/
theorem test_decode_configRead :
    decode Config.reference
      [0xC8, 0x02, 0x2C, 0x73] =
      .instr (.configRead 0xC8 [] 0x73) [] := by decide

/-- no payload; checksum `T[2D]` of R52. -/
theorem test_decode_configWrite :
    decode Config.reference
      [0xC8, 0x02, 0x2D, 0xA6] =
      .instr (.configWrite 0xC8 [] 0xA6) [] := by decide

/-- no payload; checksum `T[3A]` of R52. -/
theorem test_decode_radioId :
    decode Config.reference
      [0xC8, 0x02, 0x3A, 0xA0] =
      .instr (.radioId 0xC8 [] 0xA0) [] := by decide

/-- VEC-DEC-30. -/
theorem test_decode_unknown :
    decode Config.reference
      [0xC8, 0x05, 0xFF, 0x01, 0x02, 0x03, 0xDD] =
      .instr (.unknown 0xC8 0xFF [0x01, 0x02, 0x03] 0xDD) [] := by decide

/-- R36: the four named answers at their bounds. `L` = 0, 1, 3F and FF are illegal, 02 and 3E are
the least and the greatest legal length; FF + 2 is formed without wrap-around (VEC-BUF-10). -/
theorem test_decode_illegal_length :
    [0x00, 0x01, 0x3F, 0xFF].all (fun len : Byte =>
      decode Config.reference [0xC8, len, 0x00, 0x00] == .illegalLength) = true := by decide

theorem test_expected_length_does_not_wrap : expectedLen 0xFF = 257 := by decide

/-- R104: 61 of the 256 length bytes are legal. -/
theorem test_legal_length_bytes :
    ((List.range 256).filter fun n =>
      legalSize Config.reference (expectedLen (BitVec.ofNat 8 n))).length = 61 := by decide +kernel

theorem test_decode_needs_header :
    decode Config.reference [] = .needHeader ∧ decode Config.reference [0x55] = .needHeader := by
  decide

/-- VEC-BUF-6, VEC-BUF-18. -/
theorem test_decode_needs_body :
    decode Config.reference [0xC8, 0x3E, 0x01, 0x02, 0x03] = .needBody ∧
      decode Config.reference
        [0xC8, 0x0A, 0x08, 0x00, 0x96, 0x00, 0x32, 0x00, 0x01, 0x2C, 0x50] = .needBody := by decide

/-- VEC-BUF-11: what stands behind the frame is left. -/
theorem test_decode_leaves_the_rest :
    decode Config.reference [0xC8, 0x02, 0xFF, 0xF9, 0xC8, 0x0A, 0x08] =
      .instr (.unknown 0xC8 0xFF [] 0xF9) [0xC8, 0x0A, 0x08] := by decide

/-- R47: the example of `mkframe`. -/
theorem test_mkframe : mkframe 0x07 [0xFF, 0xE7] = [0xC8, 0x04, 0x07, 0xFF, 0xE7, 0xD9] := by decide +kernel

/-! ## Table words -/

/-- A word of 8 bits gives the type byte alone; the frame gets the row's required length. -/
theorem test_table_word_vario : decodeTableWord 8 0x07 = some (.vario 0x00 [0x00, 0x00] 0x23) := by
  decide +kernel

/-- R46: type in bits 7..0, length in bits 15..8, sync in bits 23..16. VEC-DEC-8 with sync C8. -/
theorem test_table_word_with_header :
    decodeTableWord 24 0xC80407 = some (.vario 0xC8 [0x00, 0x00] 0x23) := by decide +kernel

/-- VEC-DEC-5 as a word of five bytes: the payload follows from bit 24 on. -/
theorem test_table_word_with_payload :
    decodeTableWord 40 0xE7FFC80407 = some (.vario 0xC8 [0xFF, 0xE7] 0xD9) := by decide +kernel

/-- A placed word is what the first step after reset runs: VEC-DEC-8. -/
theorem test_placed_word_runs :
    (nextState (step (State.reset.withFetchWord 24 0xC80407))).map (·.events) =
      some [.decodedRecord 0x07 (.vario ⟨0, 10⟩)] := by decide +kernel

/-! ## Checksum engine (VEC-CRC) -/

theorem test_crc8_vectors :
    crc8 [] = 0x00 ∧ crc8 [0x00] = 0x00 ∧ crc8 [0x01] = 0xD5 ∧ crc8 [0x80] = 0xEF ∧
      crc8 [0xFF] = 0xF9 ∧ crc8 [0xD5] = 0x0B ∧ crc8 [0x01, 0x02] = 0x74 ∧
      crc8 [0xFF, 0xFF] = 0x81 := by decide

/-- The check value for ASCII "123456789" (VEC-CRC-10), and the residue (VEC-CRC-13). -/
theorem test_crc8_check_value :
    crc8 [0x31, 0x32, 0x33, 0x34, 0x35, 0x36, 0x37, 0x38, 0x39] = 0xBC ∧
      crc8 [0x1E, 0x03, 0xE8, 0xFE, 0x0C, 0x00, 0xFA, 0x4F] = 0x00 := by decide +kernel

/-- The single-step values of 95_test_vectors.md, section 2.1. -/
theorem test_crcStep_values :
    crcStep 0x80 = 0xD5 ∧ crcStep 0x40 = 0x80 ∧ crcStep 0xFF = 0x2B ∧ crcStep 0x00 = 0x00 ∧
      crcStep 0x7F = 0xFE := by decide

/-! ## Field reads (VEC-RD) -/

/-- The frame of section 2.2; its payload has 8 bytes. -/
def readFrame : List Byte :=
  [0xC8, 0x0A, 0x08, 0x80, 0x00, 0x7F, 0xFF, 0xFF, 0xFF, 0xFF, 0xFF, 0xE9]

theorem test_reads :
    rdI16 readFrame 0 = some (-32768) ∧ rdI16 readFrame 2 = some 32767 ∧
      rdU24 readFrame 4 = some 16777215 ∧ rdU8 readFrame 7 = some 255 ∧
      rdI8 readFrame 7 = some (-1) ∧ memRead readFrame 7 2 = none ∧
      rdI32 readFrame 0 = some (-2147450881) ∧ rdI32 readFrame 4 = some (-1) ∧
      memRead readFrame 1 2 = some 127 := by decide

/-! ## One step of each instruction -/

/-- A frame captured, everything else as after reset. -/
def captured (frame : List Byte) : State :=
  { State.reset with frame := some frame, control := .extracting }

/-- The events after one step with a captured frame. -/
def stepped (frame : List Byte) : Option (List Event) :=
  (nextState (step (captured frame))).map (·.events)

/-- VEC-DEC-2: the extremes, speed and heading signed, altitude of 17 bits. -/
theorem test_step_gps :
    stepped [0xC8, 0x11, 0x02, 0x80, 0x00, 0x00, 0x00, 0x7F, 0xFF, 0xFF, 0xFF, 0x80, 0x00, 0xFF, 0xFF, 0x80, 0x00, 0xFF, 0xE3] =
      some [.decodedRecord 0x02 (.gps ⟨-2147483648, 10000000⟩ ⟨2147483647, 10000000⟩ ⟨-32768, 36⟩
        ⟨-1, 100⟩ (-33768) 255)] := by decide +kernel

/-- VEC-DEC-4: one payload byte short. -/
theorem test_step_gps_truncated :
    stepped [0xC8, 0x10, 0x02, 0x00, 0x00, 0x00, 0x00, 0x00, 0x00, 0x00, 0x00, 0x00, 0x00, 0x00, 0x00, 0x00, 0x00, 0x19] =
      some [.truncatedPayload 0x02 [0xC8, 0x10, 0x02, 0x00, 0x00, 0x00, 0x00, 0x00, 0x00, 0x00, 0x00, 0x00, 0x00, 0x00, 0x00, 0x00, 0x00, 0x19]] := by decide +kernel

/-- VEC-DEC-7: the minimum. -/
theorem test_step_vario :
    stepped [0xC8, 0x04, 0x07, 0x80, 0x00, 0x88] =
      some [.decodedRecord 0x07 (.vario ⟨-32768, 10⟩)] := by decide +kernel

/-- VEC-DEC-9. -/
theorem test_step_vario_truncated :
    stepped [0xC8, 0x03, 0x07, 0x00, 0x31] =
      some [.truncatedPayload 0x07 [0xC8, 0x03, 0x07, 0x00, 0x31]] := by decide +kernel

/-- VEC-DEC-12: 24 bits unsigned, percent not clamped. -/
theorem test_step_battery :
    stepped [0xC8, 0x0A, 0x08, 0x80, 0x00, 0x7F, 0xFF, 0xFF, 0xFF, 0xFF, 0xFF, 0xE9] =
      some [.decodedRecord 0x08 (.battery ⟨-32768, 10⟩ ⟨32767, 10⟩ 16777215 255)] := by decide +kernel

/-- VEC-DEC-15. -/
theorem test_step_battery_truncated :
    stepped [0xC8, 0x09, 0x08, 0x00, 0x00, 0x00, 0x00, 0x00, 0x00, 0x00, 0x67] =
      some [.truncatedPayload 0x08 [0xC8, 0x09, 0x08, 0x00, 0x00, 0x00, 0x00, 0x00, 0x00, 0x00, 0x67]] := by decide +kernel

/-- VEC-DEC-21. -/
theorem test_step_baroAlt :
    stepped [0xC8, 0x06, 0x09, 0xFF, 0xFF, 0xFF, 0x06, 0x74] =
      some [.decodedRecord 0x09 (.baroAlt ⟨-250, 100⟩)] := by decide +kernel

/-- VEC-DEC-24. -/
theorem test_step_baroAlt_truncated :
    stepped [0xC8, 0x05, 0x09, 0x00, 0x00, 0x00, 0x12] =
      some [.truncatedPayload 0x09 [0xC8, 0x05, 0x09, 0x00, 0x00, 0x00, 0x12]] := by decide +kernel

/-- VEC-DEC-17: the last six bytes ignored. -/
theorem test_step_linkStats :
    stepped [0xC8, 0x0C, 0x14, 0xA6, 0x80, 0x63, 0xFB, 0x00, 0x00, 0x00, 0x00, 0x00, 0x00, 0x87] =
      some [.decodedRecord 0x14 (.linkStatistics (-90) (-128) 99 (-5))] := by decide +kernel

/-- VEC-DEC-20. -/
theorem test_step_linkStats_truncated :
    stepped [0xC8, 0x05, 0x14, 0xA6, 0x80, 0x63, 0x0D] =
      some [.truncatedPayload 0x14 [0xC8, 0x05, 0x14, 0xA6, 0x80, 0x63, 0x0D]] := by decide +kernel

/-- VEC-DEC-28: two extra bytes ignored. -/
theorem test_step_attitude :
    stepped [0xC8, 0x0A, 0x1E, 0x03, 0xE8, 0xFE, 0x0C, 0x00, 0xFA, 0xAA, 0xBB, 0x1C] =
      some [.decodedRecord 0x1E (.attitude ⟨1000, 10000⟩ ⟨-500, 10000⟩ ⟨250, 10000⟩)] := by decide +kernel

/-- VEC-DEC-27. -/
theorem test_step_attitude_truncated :
    stepped [0xC8, 0x07, 0x1E, 0x03, 0xE8, 0xFE, 0x0C, 0x00, 0x40] =
      some [.truncatedPayload 0x1E [0xC8, 0x07, 0x1E, 0x03, 0xE8, 0xFE, 0x0C, 0x00, 0x40]] := by decide +kernel

/-- VEC-DEC-14. -/
theorem test_step_heartbeat :
    stepped [0xC8, 0x04, 0x0B, 0x00, 0xEA, 0x36] =
      some [.unknownType 0x0B [0xC8, 0x04, 0x0B, 0x00, 0xEA, 0x36]] := by decide +kernel

/-- no payload; checksum `T[0F]` of R52. -/
theorem test_step_videoTransmitter :
    stepped [0xC8, 0x02, 0x0F, 0x7D] =
      some [.unknownType 0x0F [0xC8, 0x02, 0x0F, 0x7D]] := by decide

/-- no payload; checksum `T[16]` of R52. -/
theorem test_step_rcChannelsPacked :
    stepped [0xC8, 0x02, 0x16, 0xD3] =
      some [.unknownType 0x16 [0xC8, 0x02, 0x16, 0xD3]] := by decide

/-- no payload; checksum `T[21]` of R52. -/
theorem test_step_flightMode :
    stepped [0xC8, 0x02, 0x21, 0x71] =
      some [.unknownType 0x21 [0xC8, 0x02, 0x21, 0x71]] := by decide

/-- no payload; checksum `T[29]` of R52. -/
theorem test_step_deviceInfo :
    stepped [0xC8, 0x02, 0x29, 0x58] =
      some [.unknownType 0x29 [0xC8, 0x02, 0x29, 0x58]] := by decide

/-- no payload; checksum `T[2C]` of R52. -/
theorem test_step_configRead :
    stepped [0xC8, 0x02, 0x2C, 0x73] =
      some [.unknownType 0x2C [0xC8, 0x02, 0x2C, 0x73]] := by decide

/-- no payload; checksum `T[2D]` of R52. -/
theorem test_step_configWrite :
    stepped [0xC8, 0x02, 0x2D, 0xA6] =
      some [.unknownType 0x2D [0xC8, 0x02, 0x2D, 0xA6]] := by decide

/-- no payload; checksum `T[3A]` of R52. -/
theorem test_step_radioId :
    stepped [0xC8, 0x02, 0x3A, 0xA0] =
      some [.unknownType 0x3A [0xC8, 0x02, 0x3A, 0xA0]] := by decide

/-- VEC-DEC-30. -/
theorem test_step_unknown :
    stepped [0xC8, 0x05, 0xFF, 0x01, 0x02, 0x03, 0xDD] =
      some [.unknownType 0xFF [0xC8, 0x05, 0xFF, 0x01, 0x02, 0x03, 0xDD]] := by decide +kernel

/-- VEC-VAL-2, VEC-VAL-6 (a mismatch before an unknown type), VEC-VAL-7 (before a short payload). -/
theorem test_step_checksum_error :
    [[0xC8, 0x04, 0x07, 0xFF, 0xE7, 0xD8], [0xC8, 0x02, 0xFF, 0x00],
      [0xC8, 0x02, 0x07, 0x00]].all (fun F => stepped F == some [.checksumError F]) = true := by
  decide +kernel

/-- VEC-VAL-5: the sync byte is not covered and not examined. -/
theorem test_step_sync_ignored :
    stepped [0xC9, 0x04, 0x07, 0xFF, 0xE7, 0xD9] =
      some [.decodedRecord 0x07 (.vario ⟨-25, 10⟩)] := by decide +kernel

/-- R18: the kind codes of the five kinds (decision D11). -/
theorem test_kind_codes :
    [Event.decodedRecord 0 (.vario ⟨0, 10⟩), .unknownType 0 [], .checksumError [],
      .truncatedPayload 0 [], .desyncDiscard 2].map Event.kind = [0, 1, 2, 3, 4] := by decide

/-! ## One step without an instruction -/

/-- VEC-BUF-13, first half: an illegal length is found before anything behind it is looked at. -/
def badHeader : State :=
  { State.reset with buf := [0x55, 0x00, 0xC8, 0x04, 0x07, 0xFF, 0xE7, 0xD9] }

theorem test_step_finds_illegal_length :
    (nextState (step badHeader)).map (·.control) = some .desync := by decide

/-- R59: the discard takes the good frame with it. -/
theorem test_step_discards :
    nextState (step { badHeader with control := .desync }) =
      some { State.reset with pos := 8, events := [.desyncDiscard 8] } := by decide

/-- R61: exactly `E` bytes leave the front (VEC-BUF-12). -/
theorem test_step_captures :
    nextState (step { State.reset with buf := [0xC8, 0x02, 0xFF, 0xF9, 0xAA] }) =
      some { State.reset with
        buf := [0xAA], pos := 4, frame := some [0xC8, 0x02, 0xFF, 0xF9], control := .extracting } := by
  decide

/-- P6: RESET abandons a partial frame, without an event. -/
theorem test_step_reset :
    nextState (step { State.reset with
      buf := [0xC8, 0x0A, 0x08, 0x00, 0x96], pos := 7, input := [.reset] }) = some State.reset := by
  decide

/-- Without a captured frame EXTRACTING has no instruction to run (log 11). -/
theorem test_step_without_frame_faults :
    nextState (step { State.reset with control := .extracting }) = none := by decide

/-! ## FEED and the serial realisation -/

/-- P5: false framing, then a large discard. -/
theorem test_feed_false_framing :
    (State.reset.feed
      ([0xFE, 0x0C, 0x00, 0xFA, 0x4F] ++ [0xC8, 0x08, 0x1E, 0x03, 0xE8, 0xFE, 0x0C, 0x00, 0xFA, 0x4F]
        ++ [0xC8, 0x08, 0x1E, 0x03, 0xE8, 0xFE, 0x0C, 0x00, 0xFA, 0x4F]
        ++ [0xC8, 0x04, 0x07, 0xFF, 0xE7, 0xD9])).2 =
      [.checksumError
          [0xFE, 0x0C, 0x00, 0xFA, 0x4F, 0xC8, 0x08, 0x1E, 0x03, 0xE8, 0xFE, 0x0C, 0x00, 0xFA],
        .desyncDiscard 17] := by decide +kernel

/-- P3b in beats: the bad chunk, then the good one. -/
theorem test_serial_two_chunks :
    (Serial.run Config.reference Serial.reset
      ([[0x55, 0x00], [0xC8, 0x04, 0x07, 0xFF, 0xE7, 0xD9]].flatMap Beat.ofChunk)).2 =
      [.desyncDiscard 2, .decodedRecord 0x07 (.vario ⟨-25, 10⟩)] := by decide +kernel

/-- The output beat of an Attitude record carries its raw integers (D2). -/
theorem test_port_fields :
    (Event.decodedRecord 0x1E (.attitude ⟨1000, 10000⟩ ⟨-500, 10000⟩ ⟨250, 10000⟩)).port =
      ⟨0, 0x1E, 0, [], 0, [1000, -500, 250]⟩ := by decide


/-! ## Witnesses: concrete values that meet all hypotheses of a statement together

Each is named after the statement in Certificates/Slice0/Obligations.lean. A statement without
hypotheses has none. -/

/-- A block between FEEDs that holds the first five bytes of a Battery frame (P6). -/
def waiting (moves : List Input) : State :=
  { State.reset with buf := [0xC8, 0x0A, 0x08, 0x00, 0x96], pos := 10, input := moves }

theorem test_witness_waiting_idle (moves : List Input) : (waiting moves).Idle :=
  ⟨rfl, rfl, rfl, show Quiescent Config.reference [0xC8, 0x0A, 0x08, 0x00, 0x96] by decide⟩

theorem test_witness_ResetMove :
    (waiting [.reset, .feed []]).Idle ∧ (waiting [.reset, .feed []]).input = .reset :: [.feed []] :=
  ⟨test_witness_waiting_idle _, rfl⟩

theorem test_witness_ResetMove_input_taken :
    ∃ t, step (waiting [.reset]) = .next t ∧ t.input ≠ (waiting [.reset]).input :=
  ⟨State.reset, rfl, by decide⟩

theorem test_witness_ResetMove_desync : State.control { badHeader with control := .desync } = .desync :=
  rfl

theorem test_witness_FeedMove :
    (waiting [.feed [0x00, 0x32]]).Idle ∧
      (waiting [.feed [0x00, 0x32]]).input = .feed [0x00, 0x32] :: [] ∧
      10 < (waiting [.feed [0x00, 0x32]]).pos + (waiting [.feed [0x00, 0x32]]).buf.length ∧
      1 < [(0x00 : Byte), 0x32].length :=
  ⟨test_witness_waiting_idle _, rfl, by decide, by decide⟩

theorem test_witness_IdleBlockWaits : (waiting []).Idle ∧ (waiting []).input = [] :=
  ⟨test_witness_waiting_idle _, rfl⟩

theorem test_witness_EventsAreHandedOver :
    let s := { waiting [.reset] with events := [.desyncDiscard 2] }
    s.control = .accumulating ∧ Quiescent s.cfg s.buf ∧ s.events ≠ [] := by decide

theorem test_witness_step_answers : ∃ t, step badHeader = .next t :=
  ⟨_, rfl⟩

/-- The two clauses meet at offset 6 and 7 of a two-byte read in an eight-byte payload. -/
theorem test_witness_MemRead : 6 + 2 ≤ plen readFrame ∧ plen readFrame < 7 + 2 := by decide

theorem test_witness_NamedReads :
    rdU8 readFrame 7 = some 255 ∧ rdU24 readFrame 4 = some 16777215 ∧
      rdI8 readFrame 7 = some (-1) ∧ rdI16 readFrame 0 = some (-32768) ∧
      rdI32 readFrame 4 = some (-1) := by decide

/-- Two slices of one payload that differ in every other byte. -/
theorem test_witness_DecodersSeeOnlyThePayload :
    let F : List Byte := [0xC8, 0x04, 0x07, 0xFF, 0xE7, 0xD9]
    let G : List Byte := [0x00, 0x00, 0x00, 0xFF, 0xE7, 0x00]
    F ≠ G ∧ F.length = G.length ∧ payloadOf F = payloadOf G ∧
      decodeEvent Config.reference 0x07 F = .decodedRecord 0x07 (.vario ⟨-25, 10⟩) := by decide

theorem test_witness_DecodeOfEncode :
    Config.reference.Valid ∧
      WellFormed Config.reference (.unknown 0x00 0xFF (List.replicate 60 0x5A) 0x33) = true := by
  decide

theorem test_witness_EncodeOfDecode :
    decode Config.reference [0xC8, 0x02, 0x07, 0x00, 0xAA] = .instr (.vario 0xC8 [] 0x00) [0xAA] := by
  decide

/-- A length on each side of both bounds, and one byte too few for a body. -/
theorem test_witness_DecoderRejectsByName :
    decode Config.reference [0xC8, 0x01] = .illegalLength ∧
      decode Config.reference [0xC8, 0x02, 0x07] = .needBody ∧
      decode Config.reference [0xC8, 0x02, 0x07, 0x54] = .instr (.vario 0xC8 [] 0x54) [] ∧
      decode Config.reference [0xC8, 0x3E] = .needBody ∧
      decode Config.reference [0xC8, 0x3F] = .illegalLength := by decide

theorem test_witness_FirstTableMatch :
    WellFormed Config.reference (.gps 0xC8 [] 0x00) = true ∧
      WellFormed Config.reference (.unknown 0xC8 0x00 [] 0x00) = true := by decide

theorem test_witness_TypeByteSelectsTheRow :
    Config.reference.Valid ∧ (0x0B : Byte) ∉ Config.reference.tags ∧
      (0xFF : Byte) ∉ Config.reference.tags := by decide

theorem test_witness_SyncByte : 3 ≤ [(0x02 : Byte), 0xFF, 0xF9].length := by decide

theorem test_witness_Mkframe :
    Config.reference.Valid ∧
      (List.replicate 60 (0x00 : Byte)).length + 4 ≤ Config.reference.maxFrameSize := by decide

theorem test_witness_Crc8IsLinear :
    [(0x01 : Byte), 0x02].length = [(0xFF : Byte), 0xFF].length := rfl

/-- VEC-VAL-2: bit 0 of the checksum byte. -/
theorem test_witness_SingleBitErrors :
    let F : List Byte := [0xC8, 0x04, 0x07, 0xFF, 0xE7, 0xD9]
    4 ≤ F.length ∧ 2 ≤ 5 ∧ 5 < F.length ∧ 0 < 8 ∧ validate F = true ∧
      F.modify 5 (· ^^^ ((0x01 : Byte) <<< 0)) = [0xC8, 0x04, 0x07, 0xFF, 0xE7, 0xD8] := by decide +kernel

/-- One buffer for each clause, at the bounds: one byte; `E` = 3 and 65; `E` = 64 and 4 with one
byte missing; `E` = 4 just complete. -/
theorem test_witness_DrainFollowsTheFiveSteps :
    [(0x55 : Byte)].length < 2 ∧
      ¬(4 ≤ (0x01 : Byte).toNat + 2 ∧ (0x01 : Byte).toNat + 2 ≤ Config.reference.maxFrameSize) ∧
      ¬(4 ≤ (0x3F : Byte).toNat + 2 ∧ (0x3F : Byte).toNat + 2 ≤ Config.reference.maxFrameSize) ∧
      (4 ≤ (0x3E : Byte).toNat + 2 ∧ (0x3E : Byte).toNat + 2 ≤ Config.reference.maxFrameSize ∧
        (List.replicate 63 (0x3E : Byte)).length < (0x3E : Byte).toNat + 2) ∧
      (4 ≤ (0x02 : Byte).toNat + 2 ∧ (0x02 : Byte).toNat + 2 ≤ Config.reference.maxFrameSize ∧
        (0x02 : Byte).toNat + 2 ≤ [(0xC8 : Byte), 0x02, 0xFF, 0xF9].length) := by decide

theorem test_witness_FeedAppendsThenDrains :
    Quiescent (waiting []).cfg (waiting []).buf ∧ (waiting []).buf ≠ [] := by decide

theorem test_witness_FeedLeavesAQuiescentBuffer : (waiting []).cfg.Valid := by decide

/-- P7: a frame event, then the discard as the last event. -/
theorem test_witness_FeedRaisesBoundedEvents :
    let events := (State.reset.feed
      [0xC8, 0x04, 0x07, 0xFF, 0xE7, 0xD9, 0x00, 0x00, 0x01, 0xC8, 0x04, 0x07, 0xFF, 0xE7, 0xD9]).2
    .decodedRecord 0x07 (.vario ⟨-25, 10⟩) ∈ events.dropLast ∧
      ∃ e ∈ events, e.isDesync = true := by decide +kernel

theorem test_witness_FrontFrame :
    State.reset.cfg.Valid ∧ WellFormed State.reset.cfg (.vario 0xC8 [0xFF, 0xE7] 0x00) = true ∧
      State.reset.buf = [] := by decide

/-- P1 in three chunks, one of them empty. -/
theorem test_witness_ChunkBoundaries :
    Quiescent State.reset.cfg State.reset.buf ∧
      (State.reset.feed
        [[(0xC8 : Byte), 0x08, 0x1E, 0x03, 0xE8], [], [0xFE, 0x0C, 0x00, 0xFA, 0x4F, 0xC8]].flatten).2 =
        [.decodedRecord 0x1E (.attitude ⟨1000, 10000⟩ ⟨-500, 10000⟩ ⟨250, 10000⟩)] := by
  decide +kernel

/-- P3c, its first two bytes. -/
theorem test_witness_OneByteChunks :
    Quiescent State.reset.cfg State.reset.buf ∧
      Event.desyncDiscard 2 ∈ (State.reset.feedAll ([0x55, 0x00].map fun b => [b])).2 := by decide

/-- VEC-VAL-2 and VEC-VAL-6. -/
theorem test_witness_Mismatch :
    let c := State.reset.cfg
    crc8 ((Instr.vario 0xC8 [0xFF, 0xE7] 0xD8).tag c :: [0xFF, 0xE7]) ≠ 0xD8 ∧
      crc8 ((Instr.unknown 0xC8 0xFF [] 0x00).tag c :: []) ≠ 0x00 := by decide +kernel

/-- The payload one byte short, for each of the five decoders with fixed offsets. -/
theorem test_witness_truncated_payloads :
    (List.replicate 14 (0x00 : Byte)).length < 15 ∧ [(0x00 : Byte)].length < 2 ∧
      (List.replicate 7 (0x00 : Byte)).length < 8 ∧ (List.replicate 3 (0x00 : Byte)).length < 4 ∧
      (List.replicate 5 (0x00 : Byte)).length < 6 := by decide

/-- LinkStatistics at the boundary: four bytes for the record, three for the truncation. -/
theorem test_witness_LinkStats :
    let c := State.reset.cfg
    let p : List Byte := [0xA6, 0x80, 0x63, 0xFB]
    (p[c.lsOffRssi1]? = some 0xA6 ∧ p[c.lsOffRssi2]? = some 0x80 ∧ p[c.lsOffLq]? = some 0x63 ∧
        p[c.lsOffSnr]? = some 0xFB) ∧
      ∃ o ∈ c.lsOffsets, (p.take 3).length ≤ o := by decide

theorem test_witness_MeaningsImplementProcess :
    decode State.reset.cfg [0xC8, 0x02, 0xFF, 0xF9] = .instr (.unknown 0xC8 0xFF [] 0xF9) [] := by
  decide

/-- One frame for each clause: mismatch; unknown type; one byte short; just long enough. -/
theorem test_witness_ProcessTestsInOrder :
    let c := Config.reference
    let sum := fun F : List Byte => crc8 ((F.drop 2).take (F.length - 3))
    let A : List Byte := [0xC8, 0x02, 0xFF, 0x00]
    let B : List Byte := [0xC8, 0x02, 0xFF, 0xF9]
    let C : List Byte := [0xC8, 0x03, 0x07, 0x00, 0x31]
    let D : List Byte := [0xC8, 0x04, 0x07, 0x00, 0x00, 0x23]
    (4 ≤ A.length ∧ sum A ≠ A.getD (A.length - 1) 0) ∧
      (4 ≤ B.length ∧ sum B = B.getD (B.length - 1) 0 ∧ B.getD 2 0 ∉ c.tags) ∧
      (4 ≤ C.length ∧ sum C = C.getD (C.length - 1) 0 ∧ C.getD 2 0 ∈ c.tags ∧
        C.length - 4 < requiredLenOfTag c (C.getD 2 0)) ∧
      (4 ≤ D.length ∧ sum D = D.getD (D.length - 1) 0 ∧ D.getD 2 0 ∈ c.tags ∧
        requiredLenOfTag c (D.getD 2 0) ≤ D.length - 4) := by decide +kernel

/-- VEC-DEC-34, VEC-DEC-33, VEC-DEC-36. -/
theorem test_witness_DecodeOnBareSlices :
    let c := Config.reference
    (0xFF : Byte) ∉ c.tags ∧
      ((0x1E : Byte) ∈ c.tags ∧ [(0xC8 : Byte), 0x08].length - 4 < requiredLenOfTag c 0x1E) ∧
      ((0x07 : Byte) ∈ c.tags ∧
        requiredLenOfTag c 0x07 ≤ [(0xC8 : Byte), 0x04, 0x07, 0xFF, 0xE7, 0xD9].length - 4) := by
  decide

/-- VEC-BUF-12 in the buffer, and the same frame captured. -/
theorem test_witness_StepRuns :
    let s := { State.reset with buf := [0xC8, 0x02, 0xFF, 0xF9, 0xAA] }
    let t := captured [0xC8, 0x02, 0xFF, 0xF9]
    (s.control = .accumulating ∧
        decode s.cfg s.buf = .instr (.unknown 0xC8 0xFF [] 0xF9) [0xAA]) ∧
      (t.control = .extracting ∧ t.frame = some [0xC8, 0x02, 0xFF, 0xF9] ∧
        decode t.cfg [0xC8, 0x02, 0xFF, 0xF9] = .instr (.unknown 0xC8 0xFF [] 0xF9) []) := by
  decide

/-- A length on the far side of each bound. -/
theorem test_witness_IllegalLength :
    let s := { State.reset with buf := [0xC8, 0x01] }
    let t := { State.reset with buf := [0xC8, 0x3F] }
    (s.control = .accumulating ∧ s.buf = 0xC8 :: 0x01 :: [] ∧ (0x01 : Byte).toNat + 2 < 4) ∧
      (t.control = .accumulating ∧ t.buf = 0xC8 :: 0x3F :: [] ∧
        t.cfg.maxFrameSize < (0x3F : Byte).toNat + 2) := by decide

/-- The invariant holds of a state with a frame captured and an event delivered, and that state
steps. -/
theorem test_witness_Inv_extracting :
    let s := { captured [0xC8, 0x04, 0x07, 0xFF, 0xE7, 0xD9] with sink := [.desyncDiscard 2] }
    s.Inv ∧ ∃ t, step s = .next t := by
  refine ⟨⟨by decide, ⟨_, rfl, by decide⟩, by simp [captured, State.reset], ?_⟩, _, rfl⟩
  intro e he
  rw [List.mem_singleton.1 he]
  exact Nat.le_refl 2

/-- And of a state in which an illegal length was found. -/
theorem test_witness_Inv_desync :
    let s := { badHeader with control := .desync }
    s.Inv ∧ ∃ t, step s = .next t :=
  ⟨⟨by decide, ⟨rfl, by decide⟩, by simp [badHeader, State.reset], by simp [badHeader, State.reset]⟩,
    _, rfl⟩

theorem test_witness_MicroSteps :
    (waiting [.feed [0x00], .reset]).Idle ∧
      (waiting [.feed [0x00], .reset]).input = .feed [0x00] :: [.reset] :=
  ⟨test_witness_waiting_idle _, rfl⟩

theorem test_witness_SerialRealisation : Config.reference.Valid := by decide

/-- A waiting block and a realisation that holds its five bytes, with an old count left in `k`. -/
theorem test_witness_SerialBeats :
    Quiescent (waiting []).cfg (waiting []).buf ∧
      Serial.Tracks ⟨[0xC8, 0x0A, 0x08, 0x00, 0x96], crc8 [0x08, 0x00, 0x96], false, 7⟩
        (waiting []).buf :=
  ⟨(test_witness_waiting_idle []).2.2.2, rfl, rfl, by decide +kernel⟩

end Sys2Proof.Tests
end

/-! # Proofs for 00_scope.md: no step writes a parameter, every step answers, the micro-steps
implement FEED -/

section

namespace Sys2Proof.Machine

/-! ## A legal frame decodes, and its meaning is PROCESS -/

/-- A legal frame is one whole instruction with nothing behind it (R11, R61). -/
theorem exists_decode_of_legalFrame {c : Config} {F : List Byte} (h : LegalFrame c F) :
    ∃ i, decode c F = .instr i [] := by
  obtain ⟨h4, -, -⟩ := boundary_extract_size h
  match F, h, h4 with
  | _ :: _ :: _ :: body, h, _ =>
    rw [decode, h]
    exact ⟨_, congrArg (Decoded.instr _) (List.drop_of_length_le (by simp))⟩

theorem encode_dispatch (c : Config) (y t : Byte) (p : List Byte) (k : Byte) :
    encode c (dispatch c y t p k) = frameBytes y t p k := by
  simp [encode]

/-- The row of a type byte names the decoder that DECODE calls: both test the six tag parameters in
one order, and no row behind them has a decoder (R68). -/
theorem rowEvent_rowOfTag (c : Config) (t : Byte) (F : List Byte) :
    rowEvent c (rowOfTag c t) t F = decodeEvent c t F := by
  simp only [rowOfTag, apply_ite (rowEvent c · t F)]
  simp only [rowEvent, ite_self, decodeEvent]

/-- The meaning of a decoded frame raises the event of PROCESS (R64). -/
theorem exec_eq_raise_processEvent {s : State} {F : List Byte} {i : Instr}
    (h : decode s.cfg F = .instr i []) : exec i s = .next (s.raise (processEvent s.cfg F)) := by
  obtain ⟨y, t, p, k, rfl, rfl, -, -⟩ := decode_eq_instr h
  rw [exec_eq, encode_dispatch, dispatch_tag, dispatch_mnemonic, rowEvent_rowOfTag,
    List.append_nil, processEvent, getD_two_frameBytes]

/-- EXTRACTING with a legal frame in the register: the step raises that frame's event. -/
theorem step_extracting_of_legalFrame {s : State} {F : List Byte} (hc : s.control = .extracting)
    (hf : s.frame = some F) (hF : LegalFrame s.cfg F) :
    step s = .next (s.raise (processEvent s.cfg F)) := by
  obtain ⟨i, hi⟩ := exists_decode_of_legalFrame hF
  rw [step_extracting hc (fetch_eq_some.2 ⟨F, hf, hi⟩), exec_eq_raise_processEvent hi]

/-- The bytes that an extraction captures are a legal frame by themselves (R61). -/
theorem legalFrame_take_of_extract {c : Config} {buf : List Byte} {e : Nat}
    (h : boundary c buf = .extract e) : LegalFrame c (buf.take e) := by
  obtain ⟨-, he, -⟩ := boundary_extract_size h
  rw [LegalFrame, List.length_take_of_le he]
  exact boundary_take h

/-! ## The parameters -/

theorem exec_next_cfg {i : Instr} {s t : State} (h : exec i s = .next t) : t.cfg = s.cfg := by
  rw [exec_eq] at h
  cases h
  rfl

@[simp] theorem endPass_cfg (s : State) : s.endPass.cfg = s.cfg := by
  rcases endPass_cases s with ⟨-, -, h⟩ | ⟨_, _, -, -, h⟩ | ⟨_, -, -, h⟩ | ⟨-, h⟩ <;>
    rw [h] <;> rfl

@[simp] theorem accumulate_cfg (s : State) : s.accumulate.cfg = s.cfg := by
  rcases accumulate_cases s with ⟨-, h⟩ | ⟨-, h⟩ | ⟨_, -, h⟩
  · rw [h, endPass_cfg]
  · rw [h]
  · rw [h, State.capture_cfg]

/-- Settles O6: every case of a step keeps the parameters. -/
theorem parametersNeverChange : Obligations.ParametersNeverChange := by
  intro s t h
  rcases step_cases h with ⟨-, rfl⟩ | ⟨-, rfl⟩ | ⟨-, i, -, hi⟩
  · exact accumulate_cfg s
  · exact State.discard_cfg s
  · exact exec_next_cfg hi

/-! ## A step always answers -/

/-- Settles O51: only EXTRACTING can fail to answer, and there the invariant gives a legal frame. -/
theorem stepAlwaysAnswersANextState : Obligations.StepAlwaysAnswersANextState := by
  rintro s ⟨-, hctl, -, -⟩
  unfold State.ControlOk at hctl
  cases hc : s.control with
  | accumulating => exact ⟨_, step_accumulating hc⟩
  | desync => exact ⟨_, step_desync hc⟩
  | extracting =>
    rw [hc] at hctl
    obtain ⟨F, hf, hF⟩ := hctl
    exact ⟨_, step_extracting_of_legalFrame hc hf hF⟩

/-! ## Runs of micro-steps -/

/-- Some number of micro-steps leads from `s` to `t`. -/
abbrev Reaches : State → State → Prop :=
  Relation.ReflTransGen fun s t => step s = .next t

theorem exists_runSteps_of_reaches {s t : State} (h : Reaches s t) :
    ∃ n, runSteps n s = .next t := by
  induction h using Relation.ReflTransGen.head_induction_on with
  | refl => exact ⟨0, rfl⟩
  | head hstep _ ih =>
    obtain ⟨n, hn⟩ := ih
    exact ⟨n + 1, (runSteps_succ hstep n).trans hn⟩

/-! ## The micro-steps simulate DRAIN -/

/-- The machine between two iterations of the drain loop whose pass is `p`; what a DRAIN does not
work on is that of `s`. -/
def State.atPass (s : State) (p : Pass) : State :=
  { s with buf := p.buf, pos := p.pos, events := p.events, control := .accumulating, frame := none }

/-- An illegal length: the header test, then the discard (R59). -/
theorem reaches_discarded (s : State) {p : Pass} (h : boundary s.cfg p.buf = .desync) :
    Reaches (s.atPass p) (s.atPass p.discarded) := by
  have htest : step (s.atPass p) = .next { s.atPass p with control := .desync } := by
    rw [step_accumulating rfl, State.accumulate]
    simp only [State.atPass, h]
  have hdiscard : step { s.atPass p with control := .desync } = .next (s.atPass p.discarded) :=
    step_desync rfl
  exact .head htest (.single hdiscard)

/-- A whole frame at the front: its capture, then its meaning (R61, R64). -/
theorem reaches_extracted (s : State) {p : Pass} {e : Nat}
    (h : boundary s.cfg p.buf = .extract e) :
    Reaches (s.atPass p) (s.atPass (p.extracted s.cfg e)) := by
  have hcapture : step (s.atPass p) = .next ((s.atPass p).capture e) := by
    rw [step_accumulating rfl, State.accumulate]
    simp only [State.atPass, h]
  have hrun : step ((s.atPass p).capture e) = .next (s.atPass (p.extracted s.cfg e)) :=
    step_extracting_of_legalFrame rfl rfl (legalFrame_take_of_extract h)
  exact .head hcapture (.single hrun)

/-- The micro-steps run the drain loop to its end (R57). -/
theorem reaches_drainAll (s : State) (p : Pass) :
    Reaches (s.atPass p) (s.atPass (drainAll s.cfg p)) := by
  apply drainAll_induct (motive := fun p q => Reaches (s.atPass p) (s.atPass q))
  case stop => exact fun _ _ => .refl
  case discard => exact fun _ h => reaches_discarded s h
  case extract => exact fun _ _ h ih => (reaches_extracted s h).trans ih

/-- Where the drain loop stops, the buffer is quiescent (R62 (a)). -/
theorem drainAll_quiescent (c : Config) (p : Pass) : Quiescent c (drainAll c p).buf := by
  apply drainAll_induct (motive := fun _ q => Quiescent c q.buf)
  case stop => exact fun p h => (quiescent_iff c p.buf).2 h
  case discard => exact fun _ _ => .inl Nat.zero_lt_two
  case extract => exact fun _ _ _ ih => ih

/-! ## A FEED: the append, the drain loop, the hand-over -/

/-- The move of a chunk is the append, and the drain loop begins (R56). -/
theorem step_feed_of_idle {s : State} {chunk : List Byte} {rest : List Input} (h : s.Idle)
    (hin : s.input = .feed chunk :: rest) :
    step s = .next ({ s with input := rest }.atPass ⟨s.buf ++ chunk, s.pos, []⟩) := by
  obtain ⟨hc, hf, he, hq⟩ := h
  rw [step_quiescent hc hq, State.endPass, if_pos he, State.acceptInput, hin]
  simp only [State.append, State.atPass, hc, hf, he]

/-- A quiescent machine hands over what is pending; with nothing pending nothing is to be done. -/
theorem reaches_handOver {s : State} (hc : s.control = .accumulating)
    (hq : Quiescent s.cfg s.buf) : Reaches s s.handOver := by
  by_cases he : s.events = []
  · have hs : s.handOver = s := by simp [State.handOver, State.ext_iff, he]
    rw [hs]
  · have hstep : step s = .next s.handOver := by
      rw [step_quiescent hc hq, State.endPass, if_neg he]
    exact .single hstep

/-- The run of a FEED: the append, the drain loop by simulation, the hand-over. -/
theorem reaches_feed {s : State} {chunk : List Byte} {rest : List Input} (h : s.Idle)
    (hin : s.input = .feed chunk :: rest) :
    Reaches s ({ s with input := rest }.atPass
      (drainAll s.cfg ⟨s.buf ++ chunk, s.pos, []⟩)).handOver :=
  calc
    Reaches s ({ s with input := rest }.atPass ⟨s.buf ++ chunk, s.pos, []⟩) :=
      .single (step_feed_of_idle h hin)
    Reaches _ ({ s with input := rest }.atPass (drainAll s.cfg ⟨s.buf ++ chunk, s.pos, []⟩)) :=
      reaches_drainAll { s with input := rest } _
    Reaches _ _ := reaches_handOver rfl (drainAll_quiescent s.cfg _)

/-- Settles O52: the run ends where the drain loop has stopped and nothing is pending, and an idle
machine's other fields are those that FEED keeps. -/
theorem microStepsImplementFeed : Obligations.MicroStepsImplementFeed := by
  intro s chunk rest hidle hin
  obtain ⟨n, hn⟩ := exists_runSteps_of_reaches (reaches_feed hidle hin)
  obtain ⟨hc, hf, he, -⟩ := hidle
  refine ⟨n, _, hn, ⟨rfl, rfl, rfl, drainAll_quiescent s.cfg _⟩, ?_⟩
  simp [State.atPass, State.handOver, State.feed, hc, hf, he]

end Sys2Proof.Machine

end

/-! # Proofs for 10_state.md: reset, the hand-over to the sink, the stream position, and the
invariant -/

section

namespace Sys2Proof.Machine

/-! ## Reset and hand-over -/

/-- Settles O1: RESET writes the five fields that R19 gives a value, and no other. -/
theorem resetLeavesTheBlockEmpty : Obligations.ResetLeavesTheBlockEmpty :=
  ⟨rfl, rfl, rfl, rfl, rfl, fun _ => rfl⟩

/-- A pass that stops with events pending ends in the hand-over (R17). -/
theorem endPass_of_pending {s : State} (h : s.events ≠ []) : s.endPass = s.handOver :=
  if_neg h

/-- Settles O5: a quiescent block ends its pass, and a pass with events pending hands them over. -/
theorem eventsAreHandedOverBeforeTheNextMove :
    Obligations.EventsAreHandedOverBeforeTheNextMove := by
  intro s hc hq hpending
  rw [step_quiescent hc hq, endPass_of_pending hpending]
  rfl

/-! ## The stream moves forward -/

/-- From `s` to `t` some bytes have left the front of the buffer, each counted by the position, and
some have arrived at its back (R10, R13). -/
def State.AdvancesTo (s t : State) : Prop :=
  ∃ n chunk, n ≤ s.buf.length ∧ t.pos = s.pos + n ∧ t.buf = s.buf.drop n ++ chunk

theorem State.AdvancesTo.of_eq {s t : State} (hp : t.pos = s.pos) (hb : t.buf = s.buf) :
    s.AdvancesTo t :=
  ⟨0, [], Nat.zero_le _, hp, by simp [hb]⟩

theorem advancesTo_append (s : State) (chunk : List Byte) : s.AdvancesTo (s.append chunk) :=
  ⟨0, chunk, Nat.zero_le _, rfl, rfl⟩

theorem advancesTo_capture {s : State} {e : Nat} (h : boundary s.cfg s.buf = .extract e) :
    s.AdvancesTo (s.capture e) := by
  obtain ⟨-, hle, -⟩ := boundary_extract_size h
  exact ⟨e, [], hle, rfl, by simp⟩

theorem advancesTo_discard (s : State) : s.AdvancesTo s.discard :=
  ⟨s.buf.length, [], Nat.le_refl _, rfl, by simp⟩

theorem exec_advancesTo {i : Instr} {s t : State} (h : exec i s = .next t) : s.AdvancesTo t := by
  rw [exec_eq] at h
  cases h
  exact .of_eq rfl rfl

/-- A byte that is in the buffer of both states reads the same in both. -/
theorem State.AdvancesTo.streamByte_eq {s t : State} (h : s.AdvancesTo t) {a : Nat}
    (hat : t.pos ≤ a) (has : a < s.pos + s.buf.length) : t.streamByte a = s.streamByte a := by
  obtain ⟨n, chunk, hn, hp, hb⟩ := h
  have hin : a - t.pos < (s.buf.drop n).length := by rw [List.length_drop]; omega
  have hidx : n + (a - t.pos) = a - s.pos := by omega
  rw [streamByte_of_le hat, streamByte_of_le (by omega), hb, List.getElem?_append_left hin,
    List.getElem?_drop, hidx]

/-- A step takes a RESET from the queue, or it moves the stream forward. -/
theorem step_resets_or_advances {s t : State} (h : step s = .next t) :
    (∃ rest, s.input = .reset :: rest ∧ t.input = rest) ∨ s.AdvancesTo t := by
  rcases step_cases h with ⟨-, rfl⟩ | ⟨-, rfl⟩ | ⟨-, i, -, hi⟩
  · rcases accumulate_cases s with ⟨-, h⟩ | ⟨-, h⟩ | ⟨e, he, h⟩ <;> rw [h]
    · rcases endPass_cases s with
        ⟨-, -, h⟩ | ⟨chunk, rest, -, -, h⟩ | ⟨rest, -, hin, h⟩ | ⟨-, h⟩ <;> rw [h]
      · exact .inr (.of_eq rfl rfl)
      · exact .inr (advancesTo_append { s with input := rest } chunk)
      · exact .inl ⟨rest, hin, rfl⟩
      · exact .inr (.of_eq rfl rfl)
    · exact .inr (.of_eq rfl rfl)
    · exact .inr (advancesTo_capture he)
  · exact .inr (advancesTo_discard s)
  · exact .inr (exec_advancesTo hi)

/-- Settles O7: a step that takes no RESET moves the stream forward, and a stream that moves forward
keeps the bytes that stay. -/
theorem bytesNeverRevisitedNorRewritten : Obligations.BytesNeverRevisitedNorRewritten := by
  intro s t h
  refine (step_resets_or_advances h).imp_right fun hadv => ?_
  have hread := fun a => hadv.streamByte_eq (a := a)
  obtain ⟨n, chunk, hn, hp, hb⟩ := hadv
  have hlen : t.buf.length = s.buf.length - n + chunk.length := by simp [hb]
  exact ⟨by omega, by omega, hread, fun _ => streamByte_of_lt⟩

/-! ## Reads within the required length

A decoder is a chain of reads. Each read answers a value that fits its field, or the payload is
shorter than the read reaches; so the chain answers a sound record, or the payload is truncated. -/

/-- An optional value that satisfies `P`, and is missing only when the payload is shorter than
`req`. -/
def ReadOk {α : Type} (F : List Byte) (req : Nat) (P : α → Prop) : Option α → Prop
  | some v => P v
  | none => plen F < req

/-- One more read in a chain: it reaches no further than the chain requires. -/
theorem ReadOk.bind {α β : Type} {F : List Byte} {n req : Nat} {P : α → Prop} {Q : β → Prop}
    {x : Option α} {f : α → Option β} (hx : ReadOk F n P x) (hn : n ≤ req)
    (hf : ∀ v, P v → ReadOk F req Q (f v)) : ReadOk F req Q (x >>= f) := by
  cases x with
  | none => exact Nat.lt_of_lt_of_le hx hn
  | some v => exact hf v hx

theorem ReadOk.map {α β : Type} {F : List Byte} {n : Nat} {P : α → Prop} {Q : β → Prop}
    {x : Option α} {f : α → β} (hx : ReadOk F n P x) (hf : ∀ v, P v → Q (f v)) :
    ReadOk F n Q (x.map f) := by
  cases x with
  | none => exact hx
  | some v => exact hf v hx

theorem memRead_ok (F : List Byte) (o k : Nat) :
    ReadOk F (o + k) (fun v => v < 256 ^ k) (memRead F o k) := by
  cases h : memRead F o k with
  | none => exact memRead_eq_none.1 h
  | some v => exact memRead_lt h

theorem rdU8_ok (F : List Byte) (o : Nat) : ReadOk F (o + 1) (fun v => v < 256) (rdU8 F o) :=
  memRead_ok F o 1

theorem rdU24_ok (F : List Byte) (o : Nat) :
    ReadOk F (o + 3) (fun v => v < 16777216) (rdU24 F o) :=
  memRead_ok F o 3

theorem rdI8_ok (F : List Byte) (o : Nat) : ReadOk F (o + 1) (FitsSigned 8) (rdI8 F o) :=
  (memRead_ok F o 1).map fun _ => sext_fits (n := 8) (by decide)

theorem rdI16_ok (F : List Byte) (o : Nat) : ReadOk F (o + 2) (FitsSigned 16) (rdI16 F o) :=
  (memRead_ok F o 2).map fun _ => sext_fits (n := 16) (by decide)

theorem rdI32_ok (F : List Byte) (o : Nat) : ReadOk F (o + 4) (FitsSigned 32) (rdI32 F o) :=
  (memRead_ok F o 4).map fun _ => sext_fits (n := 32) (by decide)

/-! ## The six decoders answer sound records -/

section Decoders

variable {c : Config} {t : Byte} (F : List Byte)

theorem gpsRecord_ok (ht : t = c.tagGps) :
    ReadOk F (requiredLen c .gps) (Record.Sound c t) (gpsRecord F) := by
  refine (rdI32_ok F 0).bind (by simp [requiredLen]) fun lat hlat => ?_
  refine (rdI32_ok F 4).bind (by simp [requiredLen]) fun lon hlon => ?_
  refine (rdI16_ok F 8).bind (by simp [requiredLen]) fun gs hgs => ?_
  refine (rdI16_ok F 10).bind (by simp [requiredLen]) fun hdg hhdg => ?_
  refine (rdI16_ok F 12).bind (by simp [requiredLen]) fun alt halt => ?_
  refine (rdU8_ok F 14).bind (by simp [requiredLen]) fun sats hsats => ?_
  have haltLo : -33768 ≤ alt - 1000 := by have := halt.1; omega
  have haltHi : alt - 1000 ≤ 31767 := by have := halt.2; omega
  exact ⟨ht, rfl, rfl, rfl, rfl, hlat, hlon, hgs, hhdg, haltLo, haltHi, Nat.le_of_lt_succ hsats⟩

theorem varioRecord_ok (ht : t = c.tagVario) :
    ReadOk F (requiredLen c .vario) (Record.Sound c t) (varioRecord F) := by
  refine (rdI16_ok F 0).bind (by simp [requiredLen]) fun vs hvs => ?_
  exact ⟨ht, rfl, hvs⟩

theorem batteryRecord_ok (ht : t = c.tagBattery) :
    ReadOk F (requiredLen c .battery) (Record.Sound c t) (batteryRecord F) := by
  refine (rdI16_ok F 0).bind (by simp [requiredLen]) fun v hv => ?_
  refine (rdI16_ok F 2).bind (by simp [requiredLen]) fun a ha => ?_
  refine (rdU24_ok F 4).bind (by simp [requiredLen]) fun mah hmah => ?_
  refine (rdU8_ok F 7).bind (by simp [requiredLen]) fun pct hpct => ?_
  exact ⟨ht, rfl, rfl, hv, ha, Nat.le_of_lt_succ hmah, Nat.le_of_lt_succ hpct⟩

theorem baroAltRecord_ok (ht : t = c.tagBaroAlt) :
    ReadOk F (requiredLen c .baroAlt) (Record.Sound c t) (baroAltRecord F) := by
  refine (rdI32_ok F 0).bind (by simp [requiredLen]) fun alt halt => ?_
  exact ⟨ht, rfl, halt⟩

/-- Every one of the four offsets is within the required length. -/
theorem succ_le_requiredLen_linkStats {o : Nat} (h : o ∈ c.lsOffsets) :
    o + 1 ≤ requiredLen c .linkStats := by
  simp only [Config.lsOffsets, List.mem_cons, List.not_mem_nil, or_false] at h
  simp only [requiredLen]
  omega

theorem linkStatsRecord_ok (ht : t = c.tagLinkStats) :
    ReadOk F (requiredLen c .linkStats) (Record.Sound c t) (linkStatsRecord c F) := by
  have hreach := fun o => succ_le_requiredLen_linkStats (c := c) (o := o)
  refine (rdI8_ok F c.lsOffRssi1).bind (hreach _ (by simp [Config.lsOffsets])) fun r1 hr1 => ?_
  refine (rdI8_ok F c.lsOffRssi2).bind (hreach _ (by simp [Config.lsOffsets])) fun r2 hr2 => ?_
  refine (rdU8_ok F c.lsOffLq).bind (hreach _ (by simp [Config.lsOffsets])) fun lq hlq => ?_
  refine (rdI8_ok F c.lsOffSnr).bind (hreach _ (by simp [Config.lsOffsets])) fun snr hsnr => ?_
  exact ⟨ht, hr1, hr2, Nat.le_of_lt_succ hlq, hsnr⟩

theorem attitudeRecord_ok (ht : t = c.tagAttitude) :
    ReadOk F (requiredLen c .attitude) (Record.Sound c t) (attitudeRecord F) := by
  refine (rdI16_ok F 0).bind (by simp [requiredLen]) fun p hp => ?_
  refine (rdI16_ok F 2).bind (by simp [requiredLen]) fun r hr => ?_
  refine (rdI16_ok F 4).bind (by simp [requiredLen]) fun y hy => ?_
  exact ⟨ht, rfl, rfl, rfl, hp, hr, hy⟩

end Decoders

/-! ## PROCESS on a legal frame gives a sound event -/

/-- The truncation check and the record of a decoded type (R70, R87, R89). -/
theorem decodedEvent_sound {c : Config} {F : List Byte} {t : Byte} {req : Nat}
    {record : Option Record} (hF : LegalFrame c F) (hv : validate F = true) (h2 : F[2]? = some t)
    (ht : t ∈ c.tags) (hreq : requiredLenOfTag c t = req)
    (hrec : ReadOk F req (Record.Sound c t) record) : (decodedEvent req record t F).Sound c := by
  subst hreq
  by_cases hshort : plen F < requiredLenOfTag c t
  · rw [decodedEvent_of_short hshort]
    exact ⟨hF, hv, h2, ht, hshort⟩
  · cases record with
    | none => exact absurd hrec hshort
    | some r =>
      rw [decodedEvent_of_long (Nat.le_of_not_lt hshort)]
      exact hrec

/-- DECODE on a legal frame that validates, by the row of its type byte (R68). -/
theorem decodeEvent_sound {c : Config} {F : List Byte} {t : Byte} (hF : LegalFrame c F)
    (hv : validate F = true) (h2 : F[2]? = some t) : (decodeEvent c t F).Sound c := by
  have decoded {req : Nat} {record : Option Record} :=
    decodedEvent_sound (req := req) (record := record) hF hv h2
  have htag := rowOfTag_spec c t
  rw [← rowEvent_rowOfTag]
  cases hrow : rowOfTag c t <;> rw [hrow] at htag <;> simp only at htag
  case gps => exact decoded (by simp [Config.tags, htag]) (congrArg _ hrow) (gpsRecord_ok F htag)
  case vario =>
    exact decoded (by simp [Config.tags, htag]) (congrArg _ hrow) (varioRecord_ok F htag)
  case battery =>
    exact decoded (by simp [Config.tags, htag]) (congrArg _ hrow) (batteryRecord_ok F htag)
  case baroAlt =>
    exact decoded (by simp [Config.tags, htag]) (congrArg _ hrow) (baroAltRecord_ok F htag)
  case linkStats =>
    exact decoded (by simp [Config.tags, htag]) (congrArg _ hrow) (linkStatsRecord_ok F htag)
  case attitude =>
    exact decoded (by simp [Config.tags, htag]) (congrArg _ hrow) (attitudeRecord_ok F htag)
  -- the nine rows without a decoder
  all_goals exact ⟨hF, hv, h2, htag.1⟩

theorem getElem?_two_of_legalFrame {c : Config} {F : List Byte} (h : LegalFrame c F) :
    F[2]? = some (F.getD 2 0) := by
  obtain ⟨h4, -, -⟩ := boundary_extract_size h
  rw [List.getD_eq_getElem F 0 (by omega), List.getElem?_eq_getElem]

/-- PROCESS on a legal frame: the verdict first, then DECODE (R64, R86). -/
theorem processEvent_sound {c : Config} {F : List Byte} (hF : LegalFrame c F) :
    (processEvent c F).Sound c := by
  rw [processEvent]
  cases hv : validate F with
  | false =>
    rw [validatedEvent_of_mismatch hv]
    exact ⟨hF, hv⟩
  | true =>
    rw [validatedEvent_of_match hv]
    exact decodeEvent_sound hF hv (getElem?_two_of_legalFrame hF)

/-! ## Every operation keeps the invariant -/

theorem controlOk_accumulating {s : State} (h : s.control = .accumulating) :
    s.ControlOk ↔ s.frame = none := by
  simp [State.ControlOk, h]

theorem controlOk_extracting {s : State} (h : s.control = .extracting) :
    s.ControlOk ↔ ∃ F, s.frame = some F ∧ LegalFrame s.cfg F := by
  simp [State.ControlOk, h]

theorem controlOk_desync {s : State} (h : s.control = .desync) :
    s.ControlOk ↔ s.frame = none ∧ boundary s.cfg s.buf = .desync := by
  simp [State.ControlOk, h]

/-- Settles O49: no event is pending or delivered after reset. -/
theorem resetSatisfiesTheInvariant : Obligations.ResetSatisfiesTheInvariant :=
  ⟨by decide, rfl, List.forall_mem_nil _, List.forall_mem_nil _⟩

theorem State.Inv.raise {s : State} {e : Event} (h : s.Inv) (he : e.Sound s.cfg) :
    (s.raise e).Inv := by
  obtain ⟨hcfg, -, hevents, hsink⟩ := h
  exact ⟨hcfg, rfl, List.forall_mem_append.2 ⟨hevents, List.forall_mem_singleton.2 he⟩, hsink⟩

theorem State.Inv.append {s : State} (h : s.Inv) (hc : s.control = .accumulating)
    (chunk : List Byte) : (s.append chunk).Inv := by
  obtain ⟨hcfg, hctl, hevents, hsink⟩ := h
  have hframe := (controlOk_accumulating hc).1 hctl
  exact ⟨hcfg, (controlOk_accumulating (s := s.append chunk) hc).2 hframe, hevents, hsink⟩

theorem State.Inv.doReset {s : State} (h : s.Inv) : s.doReset.Inv := by
  obtain ⟨hcfg, -, -, hsink⟩ := h
  exact ⟨hcfg, rfl, List.forall_mem_nil _, hsink⟩

theorem State.Inv.handOver {s : State} (h : s.Inv) : s.handOver.Inv := by
  obtain ⟨hcfg, hctl, hevents, hsink⟩ := h
  exact ⟨hcfg, hctl, List.forall_mem_nil _, List.forall_mem_append.2 ⟨hsink, hevents⟩⟩

theorem State.Inv.endPass {s : State} (h : s.Inv) (hc : s.control = .accumulating) :
    s.endPass.Inv := by
  rcases endPass_cases s with ⟨-, -, hp⟩ | ⟨chunk, rest, -, -, hp⟩ | ⟨rest, -, -, hp⟩ | ⟨-, hp⟩ <;>
    rw [hp]
  · exact h
  · exact State.Inv.append (s := { s with input := rest }) h hc chunk
  · exact State.Inv.doReset (s := { s with input := rest }) h
  · exact h.handOver

/-- The captured bytes are a legal frame (R61). -/
theorem State.Inv.capture {s : State} {e : Nat} (h : s.Inv)
    (he : boundary s.cfg s.buf = .extract e) : (s.capture e).Inv := by
  obtain ⟨hcfg, -, hevents, hsink⟩ := h
  exact ⟨hcfg, ⟨_, rfl, legalFrame_take_of_extract he⟩, hevents, hsink⟩

/-- The illegal header that the test has found stands in the buffer until the discard (R59). -/
theorem State.Inv.toDesync {s : State} (h : s.Inv) (hc : s.control = .accumulating)
    (hb : boundary s.cfg s.buf = .desync) : State.Inv { s with control := .desync } := by
  obtain ⟨hcfg, hctl, hevents, hsink⟩ := h
  exact ⟨hcfg, ⟨(controlOk_accumulating hc).1 hctl, hb⟩, hevents, hsink⟩

theorem State.Inv.accumulate {s : State} (h : s.Inv) (hc : s.control = .accumulating) :
    s.accumulate.Inv := by
  rcases accumulate_cases s with ⟨-, ha⟩ | ⟨hb, ha⟩ | ⟨e, he, ha⟩ <;> rw [ha]
  · exact h.endPass hc
  · exact h.toDesync hc hb
  · exact h.capture he

/-- The header test needs two bytes, so a discard reports two at least (R85). -/
theorem State.Inv.discard {s : State} (h : s.Inv) (hc : s.control = .desync) : s.discard.Inv := by
  obtain ⟨hcfg, hctl, hevents, hsink⟩ := h
  obtain ⟨-, hb⟩ := (controlOk_desync hc).1 hctl
  obtain ⟨h2, -⟩ := (boundary_eq_desync s.cfg s.buf).1 hb
  exact ⟨hcfg, rfl, List.forall_mem_append.2 ⟨hevents, List.forall_mem_singleton.2 h2⟩, hsink⟩

/-- EXTRACTING: the step raises the event of PROCESS on the captured frame (R64). -/
theorem State.Inv.step_extracting {s t : State} (h : s.Inv) (hc : s.control = .extracting)
    (hstep : step s = .next t) : t.Inv := by
  have ⟨_, hctl, _, _⟩ := h
  obtain ⟨F, hf, hF⟩ := (controlOk_extracting hc).1 hctl
  rw [step_extracting_of_legalFrame hc hf hF] at hstep
  cases hstep
  exact h.raise (processEvent_sound hF)

/-- Settles O50: the operation of each control point keeps the invariant. -/
theorem stepKeepsTheInvariant : Obligations.StepKeepsTheInvariant := by
  intro s t h hstep
  rcases step_cases hstep with ⟨hc, rfl⟩ | ⟨hc, rfl⟩ | ⟨hc, -⟩
  · exact h.accumulate hc
  · exact h.discard hc
  · exact h.step_extracting hc hstep

end Sys2Proof.Machine

end

/-! # Proofs for 20_memory.md: the append of a chunk, MemRead and its named forms -/

section

namespace Sys2Proof.Machine

/-! ## The append of a chunk -/

/-- Between FEEDs the move of a chunk is the append and nothing else (R28). -/
theorem step_feed_eq_append {s : State} {chunk : List Byte} {rest : List Input} (h : s.Idle)
    (hin : s.input = .feed chunk :: rest) :
    step s = .next (State.append { s with input := rest } chunk) := by
  rw [step_feed_of_idle h hin]
  obtain ⟨hc, hf, he, -⟩ := h
  simp [State.atPass, State.append, hc, hf, he]

/-- The append leaves every stream byte that has arrived as it is: one below the position has left
the buffer, and one in the buffer stays there (R28). -/
theorem streamByte_append_of_lt (s : State) (chunk : List Byte) {a : Nat}
    (h : a < s.pos + s.buf.length) : (s.append chunk).streamByte a = s.streamByte a := by
  rcases Nat.lt_or_ge a s.pos with hgone | hin
  · rw [streamByte_of_lt hgone]
    exact streamByte_of_lt hgone
  · exact (advancesTo_append s chunk).streamByte_eq hin h

/-- The chunk's bytes follow the buffer's in the stream, in their order (R28, R29 (a)). -/
theorem streamByte_append_add (s : State) (chunk : List Byte) (k : Nat) :
    (s.append chunk).streamByte (s.pos + s.buf.length + k) = chunk[k]? := by
  have hpos : (s.append chunk).pos ≤ s.pos + s.buf.length + k := by
    rw [State.append_pos]; omega
  have hidx : s.pos + s.buf.length + k - s.pos = s.buf.length + k := by omega
  rw [streamByte_of_le hpos, State.append_pos, State.append_buf, hidx,
    List.getElem?_append_right (Nat.le_add_right _ _), Nat.add_sub_cancel_left]

/-- Settles O3: the step is the append, and the append keeps the old stream bytes and places the
chunk's behind them. -/
theorem feedMoveAppendsChunk : Obligations.FeedMoveAppendsChunk := by
  intro s chunk rest hidle hin
  exact ⟨step_feed_eq_append hidle hin,
    fun _ ha => streamByte_append_of_lt { s with input := rest } chunk ha,
    fun k _ => streamByte_append_add { s with input := rest } chunk k⟩

/-! ## MemRead is a big-endian sum -/

theorem bigEndian_cons (b : Byte) (l : List Byte) :
    bigEndian (b :: l) = b.toNat * 256 ^ l.length + bigEndian l := by
  induction l using List.reverseRecOn with
  | nil => simp [bigEndian]
  | append_singleton l c ih =>
    rw [← List.cons_append, bigEndian_append_singleton, ih, bigEndian_append_singleton,
      List.length_append, List.length_singleton, pow_succ]
    ring

/-- The byte at the lowest offset is the most significant (R22). -/
theorem bigEndian_eq_sum (l : List Byte) :
    bigEndian l =
      ∑ i ∈ Finset.range l.length, (l.getD i 0).toNat * 256 ^ (l.length - 1 - i) := by
  induction l with
  | nil => rfl
  | cons b l ih =>
    rw [bigEndian_cons, ih, List.length_cons, Finset.sum_range_succ', add_comm]
    simp [Nat.sub_sub, Nat.add_comm 1]

/-- The sum of R24 over `k` bytes of a list from offset `a` on. -/
theorem bigEndian_take_drop {F : List Byte} {a k : Nat} (h : a + k ≤ F.length) :
    bigEndian ((F.drop a).take k) =
      ∑ i ∈ Finset.range k, (F.getD (a + i) 0).toNat * 256 ^ (k - 1 - i) := by
  have hlen : ((F.drop a).take k).length = k := by simp; omega
  rw [bigEndian_eq_sum, hlen]
  refine Finset.sum_congr rfl fun i hi => ?_
  rw [List.getD_eq_getElem?_getD, List.getElem?_take_of_lt (Finset.mem_range.1 hi),
    List.getElem?_drop, ← List.getD_eq_getElem?_getD]

theorem plen_eq_ite (F : List Byte) :
    plen F = if 4 ≤ F.length then F.length - 4 else 0 := by
  rw [plen]
  split_ifs <;> omega

/-- Settles O8: a read of at least one byte within the payload region is within the frame, and is
its big-endian sum; a read of no bytes may stand outside a short frame, and is 0. -/
theorem memReadIsBoundedBigEndian : Obligations.MemReadIsBoundedBigEndian := by
  intro F o k
  refine ⟨plen_eq_ite F, fun hb => ?_, memRead_eq_none.2⟩
  rcases Nat.eq_zero_or_pos k with rfl | hk
  · exact memRead_eq_some.2 ⟨hb, by simp [bigEndian]⟩
  · have hF : 3 + o + k ≤ F.length := by rw [plen] at hb; omega
    exact memRead_eq_some.2 ⟨hb, (bigEndian_take_drop hF).symm⟩

/-! ## The named reads -/

/-- A value that was read satisfies what its read promises. -/
theorem ReadOk.of_eq_some {α : Type} {F : List Byte} {n : Nat} {P : α → Prop} {x : Option α}
    {v : α} (hx : ReadOk F n P x) (h : x = some v) : P v := by
  subst h
  exact hx

/-- `sext_N` of a read value, compared and subtracted as an integer, with its two powers written as
numbers: half the range and the range (R25). -/
theorem map_sext_eq {n : Nat} {half full : Int} (hhalf : 2 ^ (n - 1) = half)
    (hfull : 2 ^ n = full) (x : Option Nat) :
    x.map (sext n) =
      (do let v ← x; pure (v : Int)).map fun v => if v < half then v else v - full := by
  subst hhalf hfull
  cases x with
  | none => rfl
  | some v =>
    have hcast : v < 2 ^ (n - 1) ↔ (v : Int) < 2 ^ (n - 1) := by norm_cast
    simp [sext, hcast]

/-- Settles O9: each form is MemRead, the signed ones through `sext`, and fits the width
of its bytes. -/
theorem namedReadsStayInRange : Obligations.NamedReadsStayInRange := by
  intro F o
  refine ⟨rfl, fun v hv => ?_, rfl, fun v hv => ?_,
    map_sext_eq (n := 8) rfl rfl _, fun v hv => ?_,
    map_sext_eq (n := 16) rfl rfl _, fun v hv => ?_,
    map_sext_eq (n := 32) rfl rfl _, fun v hv => ?_⟩
  · exact Nat.le_of_lt_succ ((rdU8_ok F o).of_eq_some hv)
  · exact Nat.le_of_lt_succ ((rdU24_ok F o).of_eq_some hv)
  · exact ((rdI8_ok F o).of_eq_some hv).imp_right Int.le_of_lt_add_one
  · exact ((rdI16_ok F o).of_eq_some hv).imp_right Int.le_of_lt_add_one
  · exact ((rdI32_ok F o).of_eq_some hv).imp_right Int.le_of_lt_add_one

end Sys2Proof.Machine

end

/-! # Proofs for 30_encoding.md: the type byte and its row, decode against encode, the sync byte,
`mkframe` -/

section

namespace Sys2Proof.Machine

/-! ## The row of a type byte -/

/-- Each tag parameter has its own row: the tests before it in the dispatch ask for other tags. -/
theorem rowOfTag_tags {c : Config} (h : c.tags.Nodup) :
    rowOfTag c c.tagGps = .gps ∧ rowOfTag c c.tagVario = .vario ∧
      rowOfTag c c.tagBattery = .battery ∧ rowOfTag c c.tagBaroAlt = .baroAlt ∧
      rowOfTag c c.tagLinkStats = .linkStats ∧ rowOfTag c c.tagAttitude = .attitude := by
  simp only [Config.tags, List.nodup_cons, List.mem_cons, not_or] at h
  simp [rowOfTag, h, eq_comm]

/-- Where no tag parameter takes the type byte, its row is the same for all parameters (R42 (a)). -/
theorem rowOfTag_congr {c d : Config} {t : Byte} (hc : t ∉ c.tags) (hd : t ∉ d.tags) :
    rowOfTag c t = rowOfTag d t := by
  simp only [Config.tags, List.mem_cons, List.not_mem_nil, or_false, not_or] at hc hd
  simp [rowOfTag, hc, hd]

theorem rowOfTag_eq_unknown {c : Config} {t : Byte} (hc : t ∉ c.tags) (hi : t ∉ informativeTags) :
    rowOfTag c t = .unknown := by
  simp only [Config.tags, informativeTags, List.mem_cons, List.not_mem_nil, or_false, not_or]
    at hc hi
  simp [rowOfTag, hc, hi]

/-- An informative type byte that no tag parameter takes has the row it has at the reference
parameters. -/
theorem rowOfTag_of_informative {c : Config} {t : Byte} (hc : t ∉ c.tags)
    (hi : t ∈ informativeTags) : rowOfTag c t = rowOfTag Config.reference t := by
  have href : ∀ u ∈ informativeTags, u ∉ Config.reference.tags := by decide
  exact rowOfTag_congr hc (href t hi)

/-- A type byte that is no tag parameter has a row without a decoder (R42 (a), R81). -/
theorem rowOfTag_mem_undecoded {c : Config} {t : Byte} (hc : t ∉ c.tags) :
    rowOfTag c t ∈ [Mnemonic.heartbeat, .videoTransmitter, .rcChannelsPacked, .flightMode,
      .deviceInfo, .configRead, .configWrite, .radioId, .unknown] := by
  have hspec := rowOfTag_spec c t
  cases hrow : rowOfTag c t with
  | gps | vario | battery | baroAlt | linkStats | attitude =>
    simp only [hrow] at hspec
    exact absurd (by simp [Config.tags, hspec]) hc
  | heartbeat | videoTransmitter | rcChannelsPacked | flightMode | deviceInfo | configRead
  | configWrite | radioId | unknown => decide

/-- Settles O15: the tag parameters are pairwise distinct, and a type byte that is none of them
passes all six tests. -/
theorem typeByteSelectsTheRow : Obligations.TypeByteSelectsTheRow := by
  rintro c ⟨-, -, htags, -, -⟩
  obtain ⟨hgps, hvario, hbattery, hbaro, hlink, hatt⟩ := rowOfTag_tags htags
  exact ⟨hgps, hvario, hbattery, hbaro, hlink, hatt, fun sync tag payload check h =>
    ⟨rowOfTag_mem_undecoded h, dispatch_tag c sync tag payload check⟩⟩

/-! ## Well-formed is: the payload fits, and the dispatch finds the row -/

theorem payloadFits_iff (c : Config) (p : List Byte) :
    payloadFits c p = true ↔ p.length + 4 ≤ c.maxFrameSize :=
  decide_eq_true_iff

theorem undecodedTag_iff (c : Config) (t : Byte) : undecodedTag c t = true ↔ t ∉ c.tags := by
  simp [undecodedTag]

theorem catchAllTag_iff (c : Config) (t : Byte) :
    catchAllTag c t = true ↔ t ∉ c.tags ∧ t ∉ informativeTags := by
  simp [catchAllTag, undecodedTag]

theorem payload_fits_of_wellFormed {c : Config} {i : Instr} (h : WellFormed c i = true) :
    i.payload.length + 4 ≤ c.maxFrameSize := by
  rw [← payloadFits_iff]
  cases i with
  | gps | vario | battery | baroAlt | linkStats | attitude => exact h
  | heartbeat | videoTransmitter | rcChannelsPacked | flightMode | deviceInfo | configRead
  | configWrite | radioId | unknown => exact (Bool.and_eq_true_iff.1 h).1

/-- The dispatch on a well-formed instruction's type byte finds the instruction's row (R41, R46). -/
theorem rowOfTag_tag_of_wellFormed {c : Config} {i : Instr} (hc : c.tags.Nodup)
    (h : WellFormed c i = true) : rowOfTag c (i.tag c) = i.mnemonic := by
  obtain ⟨hgps, hvario, hbattery, hbaro, hlink, hatt⟩ := rowOfTag_tags hc
  cases i with
  | gps => exact hgps
  | vario => exact hvario
  | battery => exact hbattery
  | baroAlt => exact hbaro
  | linkStats => exact hlink
  | attitude => exact hatt
  | heartbeat | videoTransmitter | rcChannelsPacked | flightMode | deviceInfo | configRead
  | configWrite | radioId =>
    have htags := (undecodedTag_iff c _).1 (Bool.and_eq_true_iff.1 h).2
    exact rowOfTag_of_informative htags (by simp [Instr.tag, informativeTags])
  | unknown y t p k =>
    obtain ⟨htags, hinf⟩ := (catchAllTag_iff c t).1 (Bool.and_eq_true_iff.1 h).2
    exact rowOfTag_eq_unknown htags hinf

/-- The other direction needs no distinct tags: the row says what its type byte is. -/
theorem wellFormed_of_rowOfTag_tag {c : Config} {i : Instr}
    (hp : i.payload.length + 4 ≤ c.maxFrameSize) (h : rowOfTag c (i.tag c) = i.mnemonic) :
    WellFormed c i = true := by
  rw [← payloadFits_iff] at hp
  have hspec := rowOfTag_spec c (i.tag c)
  rw [h] at hspec
  cases i with
  | gps | vario | battery | baroAlt | linkStats | attitude => exact hp
  | heartbeat | videoTransmitter | rcChannelsPacked | flightMode | deviceInfo | configRead
  | configWrite | radioId =>
    exact Bool.and_eq_true_iff.2 ⟨hp, (undecodedTag_iff c _).2 hspec.1⟩
  | unknown y t p k => exact Bool.and_eq_true_iff.2 ⟨hp, (catchAllTag_iff c t).2 hspec⟩

/-! ## Decode and encode -/

/-- An instruction is its row and its bytes. -/
theorem ofRow_mnemonic (c : Config) (i : Instr) :
    Instr.ofRow i.mnemonic i.sync (i.tag c) i.payload i.check = i := by
  cases i <;> rfl

/-- Settles O11: decoding the frame dispatches on its type byte, which finds the instruction's
row. -/
theorem decodeOfEncodeIsTheInstruction : Obligations.DecodeOfEncodeIsTheInstruction := by
  rintro c i rest ⟨-, hmax, htags, -, -⟩ h
  have hfit := payload_fits_of_wellFormed h
  rw [encode, decode_frameBytes c _ _ _ _ rest hfit (by omega), dispatch,
    rowOfTag_tag_of_wellFormed htags h, ofRow_mnemonic]

/-- Settles O12: what is decoded is one frame and the rest, and the dispatch keeps every byte of the
frame. -/
theorem encodeOfDecodeIsTheBytes : Obligations.EncodeOfDecodeIsTheBytes := by
  intro c bytes i rest h
  obtain ⟨y, t, p, k, rfl, rfl, hp, -⟩ := decode_eq_instr h
  refine ⟨wellFormed_of_rowOfTag_tag ?_ ?_, by rw [encode_dispatch]⟩
  · rwa [dispatch_payload]
  · rw [dispatch_tag, dispatch_mnemonic]

/-! ## The decoder's answers follow the decision of R57 -/

/-- Where a whole frame stands at the front, the decoder reads an instruction: a legal size reaches
the type byte. -/
theorem exists_decode_of_extract {c : Config} {bytes : List Byte} {e : Nat}
    (h : boundary c bytes = .extract e) : ∃ i rest, decode c bytes = .instr i rest := by
  obtain ⟨h4, hle, -⟩ := boundary_extract_size h
  match bytes, h, h4.trans hle with
  | _ :: _ :: _ :: _, h, _ =>
    rw [decode, h]
    exact ⟨_, _, rfl⟩

/-- Each answer of the decoder is one decision of a drain iteration (R45, R57). -/
theorem decode_iff_boundary (c : Config) (bytes : List Byte) :
    (decode c bytes = .needHeader ↔ boundary c bytes = .needHeader) ∧
      (decode c bytes = .illegalLength ↔ boundary c bytes = .desync) ∧
      (decode c bytes = .needBody ↔ boundary c bytes = .needBody) ∧
      ((∃ i rest, decode c bytes = .instr i rest) ↔ ∃ e, boundary c bytes = .extract e) := by
  cases hb : boundary c bytes with
  | needHeader | desync | needBody => simp [decode, hb]
  | extract e =>
    obtain ⟨i, rest, hd⟩ := exists_decode_of_extract hb
    simp [hd]

/-- Settles O13: the decisions of a drain iteration, with their conditions on the length byte. -/
theorem decoderRejectsByName : Obligations.DecoderRejectsByName := by
  intro c bytes
  obtain ⟨hheader, hillegal, hbody, hinstr⟩ := decode_iff_boundary c bytes
  refine ⟨hheader.trans (boundary_eq_needHeader c bytes), ?_⟩
  rintro x len t rfl
  refine ⟨hillegal.trans ?_, hbody.trans ?_, hinstr.trans ?_⟩
  · simp [boundary_eq_desync, legalSize_false_iff, expectedLen]
  · simp [boundary_eq_needBody, legalSize_iff, expectedLen, and_assoc]
  · simp [boundary_eq_extract, legalSize_iff, expectedLen, and_assoc]

/-! ## The opcode table -/

theorem headerBits_and_typeMask (sync len tag : Byte) :
    headerBits sync len tag &&& 0x0000FF = tag.setWidth 24 := by
  apply BitVec.eq_of_toNat_eq
  have hmod : tag.toNat % 256 = tag.toNat % 16777216 := by have := tag.isLt; omega
  simpa [headerBits, toNat_append_byte, Nat.and_two_pow_sub_one_eq_mod _ 8] using hmod

/-- No row's mask reaches beyond the type byte (R40, R46). -/
theorem selectRow_headerBits (sync len tag : Byte) :
    selectRow (headerBits sync len tag) = selectRow (headerBits 0 0 tag) := by
  have hmask : ∀ r ∈ opcodeTable, 0x0000FF &&& r.mask = r.mask := by decide
  refine List.find?_congr fun r hr => ?_
  rw [← hmask r hr, ← BitVec.and_assoc, ← BitVec.and_assoc, headerBits_and_typeMask,
    headerBits_and_typeMask]

/-- The first match of a type byte is the row that the dispatch gives it at the reference
parameters: each of the 256 type bytes is checked against the fifteen rows. -/
theorem map_mnemonic_selectRow (tag : Byte) :
    (selectRow (headerBits 0 0 tag)).map Row.mnemonic = some (rowOfTag Config.reference tag) := by
  revert tag
  decide

/-- The table states the required length of each of its rows (R44, R80). -/
theorem reqLen_of_mem_opcodeTable :
    ∀ r ∈ opcodeTable, r.reqLen = requiredLen Config.reference r.mnemonic := by
  decide

/-- Settles O14: the first match is the row of the type byte, which is the instruction's. -/
theorem firstTableMatchIsTheInstructionsRow :
    Obligations.FirstTableMatchIsTheInstructionsRow := by
  intro i h
  have hsel := map_mnemonic_selectRow (i.tag Config.reference)
  rw [rowOfTag_tag_of_wellFormed (by decide) h] at hsel
  obtain ⟨r, hr, hm⟩ := Option.map_eq_some_iff.1 hsel
  have hreq := reqLen_of_mem_opcodeTable r (List.mem_of_find?_eq_some hr)
  exact ⟨r, (selectRow_headerBits _ _ _).trans hr, hm, hm ▸ hreq⟩

/-! ## The sync byte -/

/-- MemRead sees the size of the slice and its payload region, and nothing else (R24, R69). -/
theorem memRead_eq_payloadOf (F : List Byte) (o k : Nat) :
    memRead F o k =
      if o + k ≤ plen F then some (bigEndian (((payloadOf F).drop o).take k)) else none := by
  rw [memRead]
  refine if_ctx_congr Iff.rfl (fun h => ?_) (fun _ => rfl)
  rw [plen] at h
  have hk : k ≤ (F.drop 3).length - 1 - o := by rw [List.length_drop]; omega
  rw [payloadOf, List.dropLast_eq_take, List.drop_take, List.take_take, List.drop_drop,
    min_eq_left hk]

theorem memRead_congr {F G : List Byte} (hlen : F.length = G.length)
    (hpay : payloadOf F = payloadOf G) : memRead F = memRead G := by
  funext o k
  rw [memRead_eq_payloadOf, memRead_eq_payloadOf, plen, plen, hlen, hpay]

/-- The truncation check and the record of a decoded type, on a slice read as another is. -/
theorem decodedEvent_mapRaw {f : List Byte → List Byte} {F G : List Byte} (hG : G = f F)
    (hlen : F.length = G.length) (req : Nat) (record : Option Record) (t : Byte) :
    decodedEvent req record t G = (decodedEvent req record t F).mapRaw f := by
  subst hG
  have htrunc : truncated req (f F) = truncated req F := by
    rw [truncated, truncated, plen, plen, hlen]
  simp only [decodedEvent, htrunc]
  cases truncated req F <;> cases record <;> rfl

/-- DECODE on two slices of one size and one payload: one event, with the raw frame of each. -/
theorem decodeEvent_mapRaw {f : List Byte → List Byte} {F G : List Byte} (hG : G = f F)
    (hlen : F.length = G.length) (hpay : payloadOf F = payloadOf G) (c : Config) (t : Byte) :
    decodeEvent c t G = (decodeEvent c t F).mapRaw f := by
  have hread := memRead_congr hlen hpay
  rw [← rowEvent_rowOfTag, ← rowEvent_rowOfTag]
  cases rowOfTag c t with
  | gps | vario | battery | baroAlt | linkStats | attitude =>
    simp only [rowEvent, gpsRecord, varioRecord, batteryRecord, baroAltRecord, linkStatsRecord,
      attitudeRecord, rdU8, rdI8, rdI16, rdU24, rdI32, hread]
    exact decodedEvent_mapRaw hG hlen _ _ _
  | heartbeat | videoTransmitter | rcChannelsPacked | flightMode | deviceInfo | configRead
  | configWrite | radioId | unknown => exact congrArg (Event.unknownType t) hG

/-- The first byte does not move a frame boundary: the decision tests the length byte alone (R40,
R54). -/
theorem boundary_cons_congr (c : Config) (x y : Byte) (t : List Byte) :
    boundary c (x :: t) = boundary c (y :: t) := by
  cases t with
  | nil => rfl
  | cons len t => rw [boundary_cons_cons, boundary_cons_cons]

/-- PROCESS reads the type byte, the covered range and the payload, none of which holds the first
byte (R40). -/
theorem processEvent_mapRaw (c : Config) (x y len : Byte) (t : List Byte) :
    processEvent c (y :: len :: t) =
      (processEvent c (x :: len :: t)).mapRaw fun F => y :: F.tail := by
  have hval : validate (y :: len :: t) = validate (x :: len :: t) := by
    simp [validate, coveredRange]
  rw [processEvent, processEvent]
  cases hx : validate (x :: len :: t) with
  | false =>
    rw [validatedEvent_of_mismatch hx, validatedEvent_of_mismatch (hval.trans hx)]
    rfl
  | true =>
    rw [validatedEvent_of_match hx, validatedEvent_of_match (hval.trans hx)]
    exact decodeEvent_mapRaw (F := x :: len :: t) (f := fun F => y :: F.tail) rfl rfl rfl c _

/-- Settles O17: neither the decision, nor the verdict, nor a decoder reads the byte at offset 0. -/
theorem syncByteIsNeverExamined : Obligations.SyncByteIsNeverExamined := by
  intro c x y t
  refine ⟨boundary_cons_congr c x y t, fun h3 => ?_⟩
  match t, h3 with
  | len :: t, _ => exact processEvent_mapRaw c x y len t

/-! ## `mkframe` -/

/-- A frame whose payload fits is one whole legal frame (R34, R35, R36). -/
theorem legalFrame_frameBytes {c : Config} {p : List Byte} (hfit : p.length + 4 ≤ c.maxFrameSize)
    (hbyte : p.length + 2 < 256) (y t k : Byte) : LegalFrame c (frameBytes y t p k) := by
  have hE : expectedLen ((frameBytes y t p k).getD 1 0) = p.length + 4 := by
    simp [frameBytes, expectedLen]; omega
  rw [LegalFrame, boundary_eq_extract, hE, frameBytes_length, legalSize_iff]
  omega

/-- Settles O18: `mkframe` is the frame of its payload with the checksum that VALIDATE expects. -/
theorem mkframeBuildsAValidFrame : Obligations.MkframeBuildsAValidFrame := by
  rintro c sync tag payload ⟨-, hmax, -⟩ hfit
  exact ⟨legalFrame_frameBytes hfit (by omega) _ _ _, validate_mkframeSync _ _ _, rfl, rfl,
    payloadOf_frameBytes _ _ _ _, rfl⟩

/-! ## Words of the spec -/

/-- Settles O16: the decoder, run on each of the four words. -/
theorem specWordsDecode : Obligations.SpecWordsDecode :=
  ⟨by decide, by decide, by decide, by decide⟩

end Sys2Proof.Machine

end

/-! # Proofs for 40_checksum.md: the byte loop, linearity, residue, single-bit errors, the table -/

section

namespace Sys2Proof.Machine

/-! ## The byte loop -/

@[simp] theorem crc8_nil : crc8 [] = 0#8 := rfl

theorem crc8_append (s t : List Byte) : crc8 (s ++ t) = crcFrom (crc8 s) t :=
  crcFrom_append crcSeed s t

theorem crc8_concat (s : List Byte) (b : Byte) : crc8 (s ++ [b]) = crcByte (crc8 s) b :=
  crc8_append s [b]

theorem crcByte_eq_iterate (c b : Byte) : crcByte c b = crcStep^[8] (c ^^^ b) := rfl

/-- The bit step as arithmetic (R49): bit 7 is set from 128 on, and the shift doubles modulo 256. -/
theorem crcStep_toNat (c : Byte) :
    (crcStep c).toNat =
      if 128 ≤ c.toNat then ((2 * c.toNat) % 256) ^^^ 0xD5 else 2 * c.toNat := by
  have hbit : c.getLsbD 7 = decide (128 ≤ c.toNat) := BitVec.getLsbD_last c
  have hshift : (c <<< 1).toNat = 2 * c.toNat % 256 := by
    rw [BitVec.toNat_shiftLeft, Nat.shiftLeft_eq, Nat.mul_comm]
  rw [crcStep, hbit]
  by_cases h : 128 ≤ c.toNat
  · simp [h, hshift, crcPoly]
  · have hmod : 2 * c.toNat % 256 = 2 * c.toNat := Nat.mod_eq_of_lt (by omega)
    simp [h, hshift, hmod]

/-- Settles O19: the loop over `s ++ [b]` takes `b` last, and a byte is eight bit steps. -/
theorem crc8IsTheByteLoop : Obligations.Crc8IsTheByteLoop :=
  ⟨crc8_nil, fun s b => by rw [crc8_concat, crcByte_eq_iterate], crcStep_toNat⟩

/-- Settles O23: the loop is a fold, which splits at a concatenation. -/
theorem crc8Continues : Obligations.Crc8Continues :=
  crc8_append

/-- Settles O20: the last byte meets a running value equal to it. -/
theorem crc8ResidueIsZero : Obligations.Crc8ResidueIsZero := by
  intro s
  rw [crc8_concat, crcByte_self]
  rfl

/-! ## Linearity and leading zeros -/

/-- The loop is linear in the running value and the bytes together (R51 (d)). -/
theorem crcFrom_zipWith_xor (c d : Byte) :
    ∀ {s t : List Byte}, s.length = t.length →
      crcFrom (c ^^^ d) (List.zipWith (· ^^^ ·) s t) = crcFrom c s ^^^ crcFrom d t
  | [], [], _ => rfl
  | a :: s, b :: t, h => by
    rw [List.zipWith_cons_cons, crcFrom_cons, crcFrom_cons, crcFrom_cons, crcByte_xor]
    exact crcFrom_zipWith_xor _ _ (Nat.succ.inj h)

/-- Settles O21: the seed is zero, so it is the exclusive-or of two seeds. -/
theorem crc8IsLinear : Obligations.Crc8IsLinear := fun _ _ h =>
  crcFrom_zipWith_xor crcSeed crcSeed h

/-- Zero bytes keep the seed (R51 (b)). -/
theorem crc8_replicate_zero (n : Nat) : crc8 (List.replicate n 0#8) = 0#8 := by
  induction n with
  | zero => rfl
  | succ n ih => rw [List.replicate_succ', crc8_concat, ih, crcByte_zero]

/-- Settles O22: after the zeros the running value is the seed again. -/
theorem leadingZerosAreNotProtected : Obligations.LeadingZerosAreNotProtected := by
  intro n s
  have hzeros : crc8 (List.replicate n 0x00) = crcSeed := crc8_replicate_zero n
  refine ⟨?_, hzeros⟩
  rw [crc8_append, hzeros, crc8]

/-! ## No information is lost: bit step, byte and loop are injective -/

/-- A bit step that shifts bit 7 out sets bit 0, the constant term of the polynomial, so only zero
goes to zero; checked on the 256 bytes. -/
theorem eq_zero_of_crcStep_eq_zero : ∀ c : Byte, crcStep c = 0#8 → c = 0#8 := by
  decide

theorem crcStep_injective : Function.Injective crcStep := by
  intro a b h
  have hdiff : crcStep (a ^^^ b) = 0#8 := by rw [crcStep_xor, h, BitVec.xor_self]
  exact BitVec.xor_eq_zero_iff.1 (eq_zero_of_crcStep_eq_zero _ hdiff)

theorem crcByte_eq_iff {c d a b : Byte} : crcByte c a = crcByte d b ↔ c ^^^ a = d ^^^ b := by
  rw [crcByte_eq_iterate, crcByte_eq_iterate, (crcStep_injective.iterate 8).eq_iff]

theorem crcFrom_inj (s : List Byte) {c d : Byte} : crcFrom c s = crcFrom d s ↔ c = d := by
  induction s generalizing c d with
  | nil => rfl
  | cons b s ih => rw [crcFrom_cons, crcFrom_cons, ih, crcByte_eq_iff, BitVec.xor_left_inj]

/-- A change of one byte changes the result of the loop, whatever the change. -/
theorem crcFrom_modify_ne (f : Byte → Byte) :
    ∀ {s : List Byte} {k : Nat} (c : Byte) (hk : k < s.length), f s[k] ≠ s[k] →
      crcFrom c (s.modify k f) ≠ crcFrom c s
  | b :: s, 0, c, _, hf => by
    rw [List.modify_zero_cons, crcFrom_cons, crcFrom_cons, Ne, crcFrom_inj, crcByte_eq_iff,
      BitVec.xor_right_inj]
    exact hf
  | b :: s, k + 1, c, hk, hf => by
    rw [List.modify_succ_cons, crcFrom_cons, crcFrom_cons]
    exact crcFrom_modify_ne f _ (Nat.lt_of_succ_lt_succ hk) hf

/-! ## Single-bit errors -/

/-- Only the checksum leaves residue zero (R51 (c), both directions). -/
theorem crc8_concat_eq_zero {s : List Byte} {k : Byte} : crc8 (s ++ [k]) = 0#8 ↔ crc8 s = k := by
  rw [crc8_concat, ← crcByte_zero, crcByte_eq_iff, BitVec.xor_self, BitVec.xor_eq_zero_iff]

/-- From offset 2 on stand the covered range and the checksum byte (R39). -/
theorem drop_two_eq_coveredRange_concat {F : List Byte} (h : 2 < F.length) :
    F.drop 2 = coveredRange F ++ [F.getLastD 0] := by
  have hne : F.drop 2 ≠ [] := by simpa using h
  have hlast : F.getLastD 0 = (F.drop 2).getLast hne := by
    rw [List.getLast_drop, List.getLastD_eq_getLast?, List.getLast?_eq_some_getLast]
    rfl
  rw [coveredRange, hlast, List.dropLast_concat_getLast]

/-- A validator may run the checksum over the covered range and the checksum byte together and
compare with zero (R51 (c), R65). -/
theorem validate_iff_residue {F : List Byte} (h : 2 < F.length) :
    validate F = true ↔ crc8 (F.drop 2) = 0#8 := by
  rw [validate, beq_iff_eq, drop_two_eq_coveredRange_concat h, crc8_concat_eq_zero]

theorem xor_one_shiftLeft_ne {j : Nat} (hj : j < 8) (b : Byte) :
    b ^^^ ((0x01 : Byte) <<< j) ≠ b := by
  have hbit : ∀ j < 8, (0x01 : Byte) <<< j ≠ 0#8 := by decide
  intro h
  rw [← BitVec.xor_right_inj b, ← BitVec.xor_assoc, BitVec.xor_self, BitVec.zero_xor] at h
  exact hbit j hj h

/-- Settles O24: both frames would have residue zero, though one byte from offset 2 on differs. -/
theorem singleBitErrorsAreDetected : Obligations.SingleBitErrorsAreDetected := by
  intro F k j h4 h2 hk hj hval
  have hlen : 2 < F.length := by omega
  have hidx : k - 2 < (F.drop 2).length := by rw [List.length_drop]; omega
  rw [← Bool.not_eq_true, validate_iff_residue (by rwa [List.length_modify]),
    List.drop_modify_of_ge _ _ _ _ h2, ← (validate_iff_residue hlen).1 hval]
  exact crcFrom_modify_ne _ _ hidx (xor_one_shiftLeft_ne hj _)

/-! ## The byte-at-a-time table -/

theorem crcTable_length : crcTable.length = 256 := by
  simp only [crcTable, List.length_append, List.length_cons, List.length_nil]

/-- `T[b] = crc8([b])` (R52), each of the 256 entries checked. -/
theorem crcTable_getD (b : Byte) : crcTable.getD b.toNat 0 = crc8 [b] := by
  revert b
  decide

/-- A byte of the loop asks only for the exclusive-or of the running value and the byte. -/
theorem crcByte_eq_crc8_singleton (c b : Byte) : crcByte c b = crc8 [c ^^^ b] := by
  show crcByte c b = crcByte 0#8 (c ^^^ b)
  rw [crcByte_eq_iff, BitVec.zero_xor]

/-- Settles O25: a table access is one byte of the loop, so both loops are one fold. -/
theorem tableDrivenCrc8IsCrc8 : Obligations.TableDrivenCrc8IsCrc8 := by
  have hbyte : (fun c b => crcTable.getD (c ^^^ b).toNat 0) = crcByte := by
    funext c b
    rw [crcTable_getD, crcByte_eq_crc8_singleton]
  refine ⟨crcTable_length, fun s => ?_⟩
  rw [crc8Table, hbyte, crc8, crcFrom]

end Sys2Proof.Machine

end

/-! # Proofs for 41_reassembler.md: the tests of a drain, the frames it takes from the front, the
accounting and the bounds of a FEED, and the micro-steps of capture and discard -/

section

namespace Sys2Proof.Machine

/-! ## One iteration of DRAIN, by its test -/

theorem drainAll_of_quiescent {c : Config} {p : Pass} (h : Quiescent c p.buf) :
    drainAll c p = p := by
  rw [drainAll_eq]
  rcases (quiescent_iff c p.buf).1 h with hb | hb <;> rw [hb]

theorem drainAll_of_desync {c : Config} {p : Pass} (h : boundary c p.buf = .desync) :
    drainAll c p = p.discarded := by
  rw [drainAll_eq, h]

theorem drainAll_of_extract {c : Config} {p : Pass} {e : Nat}
    (h : boundary c p.buf = .extract e) : drainAll c p = drainAll c (p.extracted c e) := by
  rw [drainAll_eq, h]

/-- Settles O26: the four conditions are the decisions of an iteration, with `E` written out. -/
theorem drainFollowsTheFiveSteps : Obligations.DrainFollowsTheFiveSteps := by
  intro c p
  refine ⟨fun hshort => drainAll_of_quiescent (.inl hshort), fun x len t hbuf => ?_⟩
  have hlen : p.buf.length = t.length + 2 := by simp [hbuf]
  have hE : expectedLen (p.buf.getD 1 0) = len.toNat + 2 := by simp [hbuf, expectedLen]
  refine ⟨fun hillegal => ?_, fun hmin hmax hmissing => ?_, fun hmin hmax hwhole => ?_⟩
  · refine drainAll_of_desync ((boundary_eq_desync c p.buf).2 ?_)
    rw [hE, legalSize_false_iff]
    omega
  · refine drainAll_of_quiescent (.inr ?_)
    rw [hE, legalSize_iff]
    exact ⟨⟨hmin, hmax⟩, hmissing⟩
  · refine drainAll_of_extract ((boundary_eq_extract c p.buf _).2 ?_)
    rw [hE, legalSize_iff]
    omega

/-! ## FEED is the append and the drain -/

theorem feed_nil_of_quiescent {s : State} (h : Quiescent s.cfg s.buf) : s.feed [] = (s, []) := by
  rw [State.feed, List.append_nil, drainAll_of_quiescent h]

/-- Settles O27: FEED is defined by the append and the drain, and a quiescent buffer drains to
itself. -/
theorem feedAppendsThenDrains : Obligations.FeedAppendsThenDrains := fun _ _ =>
  ⟨rfl, feed_nil_of_quiescent⟩

/-! ## The frames that a drain takes from the front -/

/-- `p` after the frames `Fs` have been taken from its front and `tail` has been left (R61). -/
def Pass.afterFrames (c : Config) (p : Pass) (Fs : List (List Byte)) (tail : List Byte) : Pass where
  buf := tail
  pos := p.pos + Fs.flatten.length
  events := p.events ++ Fs.map (processEvent c)

/-- From `p` to `q` legal frames are taken from the front, one after another, until what is left is
quiescent or has an illegal header; then it stays, or it is discarded (R62 (b)). -/
def Pass.DrainsTo (c : Config) (p q : Pass) : Prop :=
  ∃ Fs tail, p.buf = List.flatten Fs ++ tail ∧ (∀ F ∈ Fs, LegalFrame c F) ∧
    (Quiescent c tail ∧ q = p.afterFrames c Fs tail ∨
      boundary c tail = .desync ∧ q = (p.afterFrames c Fs tail).discarded)

/-- Taking the frame at the front and then the frames `Fs` is taking all of them. -/
theorem afterFrames_extracted {c : Config} {p : Pass} {e : Nat} (he : e ≤ p.buf.length)
    (Fs : List (List Byte)) (tail : List Byte) :
    (p.extracted c e).afterFrames c Fs tail = p.afterFrames c (p.buf.take e :: Fs) tail := by
  simp [Pass.afterFrames, Pass.extracted, he, Nat.add_assoc]

theorem Pass.DrainsTo.of_extracted {c : Config} {p q : Pass} {e : Nat}
    (he : boundary c p.buf = .extract e) (h : (p.extracted c e).DrainsTo c q) :
    p.DrainsTo c q := by
  obtain ⟨Fs, tail, hbuf, hFs, hstop⟩ := h
  obtain ⟨-, hle, -⟩ := boundary_extract_size he
  rw [afterFrames_extracted hle] at hstop
  refine ⟨p.buf.take e :: Fs, tail, ?_, ?_, hstop⟩
  · calc
      p.buf = p.buf.take e ++ p.buf.drop e := (List.take_append_drop e p.buf).symm
      _ = p.buf.take e ++ (Fs.flatten ++ tail) := congrArg _ hbuf
      _ = (p.buf.take e :: Fs).flatten ++ tail := by simp
  · exact List.forall_mem_cons.2 ⟨legalFrame_take_of_extract he, hFs⟩

/-- What a whole drain does to a pass. -/
theorem drainsTo_drainAll (c : Config) (p : Pass) : p.DrainsTo c (drainAll c p) := by
  apply drainAll_induct (motive := Pass.DrainsTo c)
  case stop =>
    intro p h
    exact ⟨[], p.buf, rfl, List.forall_mem_nil _,
      .inl ⟨(quiescent_iff c p.buf).2 h, by simp [Pass.afterFrames]⟩⟩
  case discard =>
    intro p h
    exact ⟨[], p.buf, rfl, List.forall_mem_nil _, .inr ⟨h, by simp [Pass.afterFrames]⟩⟩
  case extract => exact fun _ _ he ih => ih.of_extracted he

/-- What a FEED does: it takes legal frames from the front of buffer and chunk; then what is left
stays in the buffer, or it is discarded and the FEED reports the number of its bytes. -/
theorem feed_cases (s : State) (chunk : List Byte) :
    ∃ Fs tail, s.buf ++ chunk = List.flatten Fs ++ tail ∧ (∀ F ∈ Fs, LegalFrame s.cfg F) ∧
      (Quiescent s.cfg tail ∧ s.feed chunk =
          ({ s with buf := tail, pos := s.pos + Fs.flatten.length }, Fs.map (processEvent s.cfg)) ∨
        boundary s.cfg tail = .desync ∧ s.feed chunk =
          ({ s with buf := [], pos := s.pos + Fs.flatten.length + tail.length },
            Fs.map (processEvent s.cfg) ++ [.desyncDiscard tail.length])) := by
  obtain ⟨Fs, tail, hbuf, hFs, hstop⟩ := drainsTo_drainAll s.cfg ⟨s.buf ++ chunk, s.pos, []⟩
  refine ⟨Fs, tail, hbuf, hFs, hstop.imp ?_ ?_⟩
  · rintro ⟨hq, h⟩
    exact ⟨hq, by rw [State.feed, h]; rfl⟩
  · rintro ⟨hd, h⟩
    exact ⟨hd, by rw [State.feed, h]; rfl⟩

/-! ## Every byte is accounted for -/

/-- The frames as segments: their bytes in order, and the event of PROCESS for each (R62 (b)). -/
theorem frameSegments_flatMap_bytes (Fs : List (List Byte)) :
    (Fs.map Segment.frame).flatMap Segment.bytes = Fs.flatten := by
  rw [List.flatMap_map]
  exact List.flatMap_id'

theorem frameSegments_map_event (c : Config) (Fs : List (List Byte)) :
    (Fs.map Segment.frame).map (Segment.event c) = Fs.map (processEvent c) := by
  rw [List.map_map]
  rfl

/-- Settles O29: the segments are the frames that the FEED takes, and behind them what it discards,
if it discards. -/
theorem feedAccountsForEveryByte : Obligations.FeedAccountsForEveryByte := by
  intro s chunk
  obtain ⟨Fs, tail, hbuf, hFs, ⟨-, hfeed⟩ | ⟨hdesync, hfeed⟩⟩ := feed_cases s chunk <;> rw [hfeed]
  · refine ⟨Fs.map .frame, (frameSegments_map_event _ _).symm, ?_, ?_, ?_, ?_⟩
    · rw [frameSegments_flatMap_bytes, hbuf]
    · rw [frameSegments_flatMap_bytes]
    · simpa using hFs
    · simp
  · obtain ⟨htwo, -⟩ := (boundary_eq_desync s.cfg tail).1 hdesync
    have hbytes : (Fs.map Segment.frame ++ [Segment.discard tail]).flatMap Segment.bytes =
        Fs.flatten ++ tail := by
      rw [List.flatMap_append, frameSegments_flatMap_bytes, List.flatMap_singleton]
      rfl
    refine ⟨Fs.map .frame ++ [.discard tail], ?_, ?_, ?_, ?_, ?_⟩
    · rw [List.map_append, frameSegments_map_event]
      rfl
    · rw [hbytes, List.append_nil, hbuf]
    · rw [hbytes, List.length_append, Nat.add_assoc]
    · simpa using hFs
    · simpa using htwo

/-! ## The buffer after a FEED -/

/-- A quiescent buffer is shorter than a largest frame, which has two bytes at least. -/
theorem length_lt_maxFrameSize_of_quiescent {c : Config} {buf : List Byte} (hc : c.Valid)
    (h : Quiescent c buf) : buf.length < c.maxFrameSize := by
  obtain ⟨hmin, -⟩ := hc
  rcases h with hshort | ⟨hlegal, hmissing⟩
  · omega
  · obtain ⟨-, hmax⟩ := (legalSize_iff c _).1 hlegal
    omega

/-- Settles O28: a drain ends quiescent. -/
theorem feedLeavesAQuiescentBuffer : Obligations.FeedLeavesAQuiescentBuffer := by
  intro s chunk
  have hq : Quiescent s.cfg (s.feed chunk).1.buf := drainAll_quiescent s.cfg _
  exact ⟨hq, fun hc => length_lt_maxFrameSize_of_quiescent hc hq⟩

/-! ## The events of a FEED -/

/-- A frame has four bytes at least, so there are at most a fourth as many frames as bytes (R63). -/
theorem four_mul_length_le_length_flatten {c : Config} {Fs : List (List Byte)}
    (h : ∀ F ∈ Fs, LegalFrame c F) : 4 * Fs.length ≤ Fs.flatten.length := by
  induction Fs with
  | nil => exact Nat.le_refl 0
  | cons F Fs ih =>
    obtain ⟨hF, hFs⟩ := List.forall_mem_cons.1 h
    obtain ⟨hfour, -⟩ := boundary_extract_size hF
    have := ih hFs
    rw [List.length_cons, List.flatten_cons, List.length_append]
    omega

theorem decodedEvent_isDesync (req : Nat) (record : Option Record) (t : Byte) (F : List Byte) :
    (decodedEvent req record t F).isDesync = false := by
  unfold decodedEvent
  cases truncated req F <;> cases record <;> rfl

/-- No frame's event is a DesyncDiscard, whatever its row and its checksum (R83). -/
theorem processEvent_isDesync (c : Config) (F : List Byte) :
    (processEvent c F).isDesync = false := by
  rw [processEvent]
  cases hv : validate F with
  | false => rw [validatedEvent_of_mismatch hv]; rfl
  | true =>
    rw [validatedEvent_of_match hv, ← rowEvent_rowOfTag]
    cases rowOfTag c (F.getD 2 0) with
    | gps | vario | battery | baroAlt | linkStats | attitude => exact decodedEvent_isDesync _ _ _ _
    | heartbeat | videoTransmitter | rcChannelsPacked | flightMode | deviceInfo | configRead
    | configWrite | radioId | unknown => rfl

theorem isDesync_of_mem_map_processEvent {c : Config} {Fs : List (List Byte)} :
    ∀ e ∈ Fs.map (processEvent c), e.isDesync = false :=
  List.forall_mem_map.2 fun F _ => processEvent_isDesync c F

/-- Settles O30: the events are those of the frames and at most one discard behind them, which
leaves nothing in the buffer. -/
theorem feedRaisesBoundedEventsDesyncLast : Obligations.FeedRaisesBoundedEventsDesyncLast := by
  intro s chunk
  obtain ⟨Fs, tail, hbuf, hFs, hstop⟩ := feed_cases s chunk
  have hframes := isDesync_of_mem_map_processEvent (c := s.cfg) (Fs := Fs)
  have hcount : Fs.length ≤ (s.buf.length + chunk.length) / 4 := by
    have hfour := four_mul_length_le_length_flatten hFs
    have hbytes := congrArg List.length hbuf
    rw [List.length_append, List.length_append] at hbytes
    omega
  rcases hstop with ⟨-, hfeed⟩ | ⟨-, hfeed⟩ <;> rw [hfeed]
  · refine ⟨?_, fun e he => hframes e (List.mem_of_mem_dropLast he), ?_⟩
    · rw [List.length_map]
      exact Nat.le_succ_of_le hcount
    · rintro ⟨e, he, hd⟩
      exact absurd hd (Bool.eq_false_iff.1 (hframes e he))
  · refine ⟨?_, ?_, fun _ => rfl⟩
    · rw [List.length_append, List.length_map]
      exact Nat.succ_le_succ hcount
    · rw [List.dropLast_concat]
      exact hframes

/-! ## The frame at the front -/

/-- The pass with the events `es` raised before its own. -/
def Pass.raisedBefore (es : List Event) (p : Pass) : Pass :=
  { p with events := es ++ p.events }

/-- A drain neither reads nor rewrites the events already raised. -/
theorem drainAll_raisedBefore (c : Config) (es : List Event) (p : Pass) :
    drainAll c (p.raisedBefore es) = (drainAll c p).raisedBefore es := by
  apply drainAll_induct
    (motive := fun p q => drainAll c (p.raisedBefore es) = q.raisedBefore es)
  case stop => exact fun p h => drainAll_of_quiescent ((quiescent_iff c p.buf).2 h)
  case discard =>
    intro p h
    rw [drainAll_of_desync (p := p.raisedBefore es) h]
    simp [Pass.raisedBefore, Pass.discarded]
  case extract =>
    intro p e h ih
    rw [drainAll_of_extract (p := p.raisedBefore es) h, ← ih]
    simp [Pass.raisedBefore, Pass.extracted]

/-- A legal frame is extracted whatever bytes follow it (R61). -/
theorem boundary_legalFrame_append {c : Config} {F : List Byte} (h : LegalFrame c F)
    (rest : List Byte) : boundary c (F ++ rest) = .extract F.length := by
  obtain ⟨htwo, hlegal, hwhole, hsize⟩ := (boundary_eq_extract c F _).1 h
  have hget : (F ++ rest).getD 1 0 = F.getD 1 0 := List.getD_append _ _ _ _ htwo
  rw [boundary_eq_extract, hget, List.length_append]
  exact ⟨by omega, hlegal, by omega, hsize⟩

/-- A drain that begins at a legal frame raises its event and drains what is behind it. -/
theorem drainAll_legalFrame_append {c : Config} {F : List Byte} (h : LegalFrame c F)
    (rest : List Byte) (n : Nat) :
    drainAll c ⟨F ++ rest, n, []⟩ =
      (drainAll c ⟨rest, n + F.length, []⟩).raisedBefore [processEvent c F] := by
  rw [drainAll_of_extract (boundary_legalFrame_append h rest), ← drainAll_raisedBefore]
  simp [Pass.extracted, Pass.raisedBefore]

theorem legalFrame_encode {c : Config} {i : Instr} (hc : c.Valid) (h : WellFormed c i = true) :
    LegalFrame c (encode c i) := by
  obtain ⟨-, hmax, -⟩ := hc
  have hfit := payload_fits_of_wellFormed h
  exact legalFrame_frameBytes hfit (by omega) _ _ _

/-- Settles O31: from an empty buffer the drain begins at a legal frame, the instruction's own. -/
theorem frontFrameCostsOnlyItself : Obligations.FrontFrameCostsOnlyItself := by
  intro s i rest hc hi hbuf
  have hdrain := drainAll_legalFrame_append (legalFrame_encode hc hi) rest s.pos
  simp only [State.feed, hbuf, List.nil_append, hdrain]
  rfl

/-! ## The micro-steps of the drain loop -/

/-- Settles O4: an idle block ends its pass, which takes no move when there is none. -/
theorem idleBlockWaits : Obligations.IdleBlockWaits := by
  rintro s ⟨hc, -, hevents, hq⟩ hin
  rw [step_quiescent hc hq, State.endPass, if_pos hevents, State.acceptInput, hin]

theorem step_of_desync {s : State} (hc : s.control = .accumulating)
    (h : boundary s.cfg s.buf = .desync) : step s = .next { s with control := .desync } := by
  rw [step_accumulating hc, State.accumulate, h]

theorem step_of_extract {s : State} {e : Nat} (hc : s.control = .accumulating)
    (h : boundary s.cfg s.buf = .extract e) : step s = .next (s.capture e) := by
  rw [step_accumulating hc, State.accumulate, h]

/-- Settles O48: the first step finds the illegal length, the second discards. -/
theorem illegalLengthDiscardsTheBuffer : Obligations.IllegalLengthDiscardsTheBuffer := by
  intro s x len t hc hbuf hillegal
  have hdesync : boundary s.cfg s.buf = .desync := by
    rw [hbuf, boundary_eq_desync]
    exact ⟨by simp, (legalSize_false_iff s.cfg _).2 hillegal⟩
  refine ⟨_, step_of_desync hc hdesync, ?_⟩
  rw [step_desync rfl, State.discard, State.raise, hc]

/-- What the front of a byte sequence decodes to is a legal frame, and by itself it decodes to the
same instruction. -/
theorem encode_of_decode {c : Config} {bytes rest : List Byte} {i : Instr}
    (h : decode c bytes = .instr i rest) :
    bytes = encode c i ++ rest ∧ LegalFrame c (encode c i) ∧
      decode c (encode c i) = .instr i [] := by
  obtain ⟨y, t, p, k, rfl, rfl, hfit, hbyte⟩ := decode_eq_instr h
  rw [encode_dispatch]
  have halone := decode_frameBytes c y t p k [] hfit hbyte
  rw [List.append_nil] at halone
  exact ⟨rfl, legalFrame_frameBytes hfit hbyte _ _ _, halone⟩

theorem capture_of_buf_eq_append {s : State} {F rest : List Byte} (h : s.buf = F ++ rest) :
    s.capture F.length =
      { s with
        buf := rest
        pos := s.pos + F.length
        frame := some F
        control := .extracting } := by
  simp [State.capture, h]

/-- Settles O47: the step at ACCUMULATING captures the bytes that were decoded, and EXTRACTING
decodes the frame register again. -/
theorem stepRunsTheDecodedInstruction : Obligations.StepRunsTheDecodedInstruction := by
  refine ⟨fun s i rest hc hd => ?_, fun s F i hc hF hd => ?_⟩
  · obtain ⟨hbuf, hlegal, halone⟩ := encode_of_decode hd
    have hb : boundary s.cfg s.buf = .extract (encode s.cfg i).length := by
      rw [hbuf]
      exact boundary_legalFrame_append hlegal rest
    have hstep := step_of_extract hc hb
    rw [capture_of_buf_eq_append hbuf] at hstep
    exact ⟨_, hstep, step_extracting rfl (fetch_eq_some.2 ⟨_, rfl, halone⟩), rfl⟩
  · exact step_extracting hc (fetch_eq_some.2 ⟨F, hF, hd⟩)

end Sys2Proof.Machine

end

/-! # Proofs for 42_validator.md: the checksum mismatch, the frame of every instruction, and the
meanings against PROCESS -/

section

namespace Sys2Proof.Machine

/-- VALIDATE on an instruction's frame compares the instruction's checksum byte with the checksum of
its type byte and payload (R39, R65). -/
theorem validate_encode (c : Config) (i : Instr) :
    validate (encode c i) = (crc8 (i.tag c :: i.payload) == i.check) :=
  validate_frameBytes _ _ _ _

/-- A meaning whose checksum byte differs raises ChecksumError, whatever its row (R66). -/
theorem exec_of_checksum_ne {i : Instr} {s : State}
    (h : crc8 (i.tag s.cfg :: i.payload) ≠ i.check) :
    exec i s = .next (s.raise (.checksumError (encode s.cfg i))) := by
  have hv : validate (encode s.cfg i) = false := by rwa [validate_encode, beq_eq_false_iff_ne]
  rw [exec_eq, validatedEvent_of_mismatch hv]

/-- Settles O35: the one event raised is the ChecksumError. -/
theorem mismatchReportsChecksumErrorOnly : Obligations.MismatchReportsChecksumErrorOnly :=
  fun _ _ => exec_of_checksum_ne

/-- To raise an event leaves every stream byte as it reads (R84, R92). -/
theorem streamByte_raise (s : State) (e : Event) (a : Nat) :
    (s.raise e).streamByte a = s.streamByte a :=
  streamByte_congr (State.raise_pos s e) (State.raise_buf s e) a

/-- Settles O43: every meaning is one raise, so what it writes and what it leaves is what a raise
does. -/
theorem meaningsRaiseOneEventAndChangeNothingElse :
    Obligations.MeaningsRaiseOneEventAndChangeNothingElse := fun i s =>
  ⟨_, exec_eq i s, ⟨_, State.raise_events s _⟩, State.raise_frame s _, State.raise_control s _,
    State.raise_cfg s _, State.raise_buf s _, State.raise_pos s _, State.raise_input s _,
    State.raise_sink s _, streamByte_raise s _⟩

/-- Settles O44: a decoded frame's row names the decoder that PROCESS calls. -/
theorem meaningsImplementProcess : Obligations.MeaningsImplementProcess :=
  fun _ _ _ => exec_eq_raise_processEvent

end Sys2Proof.Machine

end

/-! # Proofs for 43_decoder.md: the decoder over bare slices, the record and the truncation of every
decoded type, the undecoded types -/

section

namespace Sys2Proof.Machine

/-! ## DECODE over every slice -/

/-- Settles O10: the event on `G` is the event on `F` with its raw frame replaced by `G`, and a
record carries no raw frame. -/
theorem decodersSeeOnlyThePayload : Obligations.DecodersSeeOnlyThePayload := by
  intro c F G hlen hpay
  refine ⟨fun o k => congrFun₂ (memRead_congr hlen hpay) o k, fun tag r h => ?_⟩
  rw [decodeEvent_mapRaw (f := fun _ => G) rfl hlen hpay, h]
  rfl

/-- A type byte that is none of the six tag parameters passes all six tests of DECODE (R68). -/
theorem decodeEvent_of_not_mem_tags {c : Config} {t : Byte} (h : t ∉ c.tags) (F : List Byte) :
    decodeEvent c t F = .unknownType t F := by
  simp only [Config.tags, List.mem_cons, List.not_mem_nil, or_false, not_or] at h
  simp [decodeEvent, h]

/-- DECODE of a decoded type is the truncation check at its required length and the record of its
layout, which has no field beyond that length (R68, R70). -/
theorem exists_decodeEvent_eq_decodedEvent {c : Config} {t : Byte} (h : t ∈ c.tags)
    (F : List Byte) :
    ∃ record, ReadOk F (requiredLenOfTag c t) (Record.Sound c t) record ∧
      decodeEvent c t F = decodedEvent (requiredLenOfTag c t) record t F := by
  have htag := rowOfTag_spec c t
  rw [← rowEvent_rowOfTag, requiredLenOfTag]
  cases hrow : rowOfTag c t <;> rw [hrow] at htag <;> simp only at htag
  case gps => exact ⟨_, gpsRecord_ok F htag, rfl⟩
  case vario => exact ⟨_, varioRecord_ok F htag, rfl⟩
  case battery => exact ⟨_, batteryRecord_ok F htag, rfl⟩
  case baroAlt => exact ⟨_, baroAltRecord_ok F htag, rfl⟩
  case linkStats => exact ⟨_, linkStatsRecord_ok F htag, rfl⟩
  case attitude => exact ⟨_, attitudeRecord_ok F htag, rfl⟩
  -- the nine rows without a decoder
  all_goals exact absurd h htag.1

/-- Settles O46: an unknown tag meets no decoder; a decoded tag meets the truncation check, and a
payload that passes it has every field. -/
theorem decodeIsDefinedOnBareSlices : Obligations.DecodeIsDefinedOnBareSlices := by
  refine fun c tag F => ⟨(decodeEvent_of_not_mem_tags · F), fun htag hshort => ?_,
    fun htag hlong => ?_⟩
  · obtain ⟨record, -, hevent⟩ := exists_decodeEvent_eq_decodedEvent htag F
    rw [hevent]
    exact decodedEvent_of_short hshort _ _
  · obtain ⟨record, hrecord, hevent⟩ := exists_decodeEvent_eq_decodedEvent htag F
    rw [hevent]
    cases record with
    | none => exact absurd hrecord (Nat.not_lt.2 hlong)
    | some r => exact ⟨r, decodedEvent_of_long hlong r tag⟩

/-! ## Reads of a frame with its correct checksum -/

section Reads

variable {y t a b c d : Byte} {p rest : List Byte} {o : Nat}

/-- MemRead of the bytes that stand in the payload from offset `o` on. -/
theorem memRead_mkframeSync {bytes : List Byte} {k : Nat} (hk : bytes.length = k) (hpos : 0 < k)
    (h : p.drop o = bytes ++ rest) : memRead (mkframeSync y t p) o k = some (bigEndian bytes) := by
  have hlen := congrArg List.length h
  rw [List.length_drop, List.length_append] at hlen
  rw [mkframeSync, memRead_frameBytes, if_pos (by omega), h, List.take_left' hk]

theorem rdU8_mkframeSync (h : p.drop o = a :: rest) :
    rdU8 (mkframeSync y t p) o = some a.toNat := by
  rw [rdU8, memRead_mkframeSync (bytes := [a]) (k := 1) rfl (by decide) h, bigEndian_one]

theorem rdI8_mkframeSync (h : p.drop o = a :: rest) :
    rdI8 (mkframeSync y t p) o = some a.toInt := by
  rw [rdI8, memRead_mkframeSync (bytes := [a]) (k := 1) rfl (by decide) h, bigEndian_one,
    Option.map_some, sext_toNat (by decide)]

theorem rdI16_mkframeSync (h : p.drop o = a :: b :: rest) :
    rdI16 (mkframeSync y t p) o = some (a ++ b : BitVec 16).toInt := by
  rw [rdI16, memRead_mkframeSync (bytes := [a, b]) (k := 2) rfl (by decide) h, bigEndian_two,
    Option.map_some, sext_toNat (by decide)]

theorem rdU24_mkframeSync (h : p.drop o = a :: b :: c :: rest) :
    rdU24 (mkframeSync y t p) o = some (a ++ b ++ c : BitVec 24).toNat := by
  rw [rdU24, memRead_mkframeSync (bytes := [a, b, c]) (k := 3) rfl (by decide) h, bigEndian_three]

theorem rdI32_mkframeSync (h : p.drop o = a :: b :: c :: d :: rest) :
    rdI32 (mkframeSync y t p) o = some (a ++ b ++ c ++ d : BitVec 32).toInt := by
  rw [rdI32, memRead_mkframeSync (bytes := [a, b, c, d]) (k := 4) rfl (by decide) h, bigEndian_four,
    Option.map_some, sext_toNat (by decide)]

/-- The byte at an offset that the payload reaches is the first of what is left from there on. -/
theorem exists_drop_eq_cons (h : p[o]? = some a) : ∃ rest, p.drop o = a :: rest := by
  obtain ⟨ho, rfl⟩ := List.getElem?_eq_some_iff.1 h
  exact ⟨_, List.drop_eq_getElem_cons ho⟩

end Reads

/-! ## The two results of a decoded type -/

section Results

variable {row : Mnemonic} {record : List Byte → Option Record} {y t : Byte} {p : List Byte}
  {s : State}

/-- A payload that reaches every field gives the record (R89). -/
theorem runDecoded_of_long {r : Record} (hlen : requiredLen s.cfg row ≤ p.length)
    (hrecord : record (mkframeSync y t p) = some r) :
    runDecoded row record y t p (crc8 (t :: p)) s = .next (s.raise (.decodedRecord t r)) := by
  rw [runDecoded_match, hrecord, decodedEvent_of_long (by rwa [plen_mkframeSync])]

/-- A shorter payload is truncated, whatever the decoder would read (R70, R87). -/
theorem runDecoded_of_short (hlen : p.length < requiredLen s.cfg row) :
    runDecoded row record y t p (crc8 (t :: p)) s =
      .next (s.raise (.truncatedPayload t (mkframeSync y t p))) := by
  rw [runDecoded_match, decodedEvent_of_short (by rwa [plen_mkframeSync])]

end Results

/-! ## The six decoded types -/

/-- Settles O36: six reads at the offsets of the GPS layout. -/
theorem gpsFrameResult : Obligations.GpsFrameResult := by
  refine fun s sync => ⟨?_, fun payload => runDecoded_of_short (row := .gps)⟩
  intro p0 p1 p2 p3 p4 p5 p6 p7 p8 p9 p10 p11 p12 p13 p14 rest payload
  refine runDecoded_of_long (row := .gps) (Nat.le_add_left 15 rest.length) ?_
  rw [gpsRecord, rdI32_mkframeSync (p := payload) (o := 0) rfl,
    rdI32_mkframeSync (p := payload) (o := 4) rfl, rdI16_mkframeSync (p := payload) (o := 8) rfl,
    rdI16_mkframeSync (p := payload) (o := 10) rfl, rdI16_mkframeSync (p := payload) (o := 12) rfl,
    rdU8_mkframeSync (p := payload) (o := 14) rfl]
  rfl

/-- Settles O37: one read. -/
theorem varioFrameResult : Obligations.VarioFrameResult := by
  refine fun s sync => ⟨fun p0 p1 rest => ?_, fun payload => runDecoded_of_short (row := .vario)⟩
  refine runDecoded_of_long (row := .vario) (Nat.le_add_left 2 rest.length) ?_
  rw [varioRecord, rdI16_mkframeSync (p := p0 :: p1 :: rest) (o := 0) rfl]
  rfl

/-- Settles O38: four reads at the offsets of the BATTERY layout. -/
theorem batteryFrameResult : Obligations.BatteryFrameResult := by
  refine fun s sync => ⟨?_, fun payload => runDecoded_of_short (row := .battery)⟩
  intro p0 p1 p2 p3 p4 p5 p6 p7 rest payload
  refine runDecoded_of_long (row := .battery) (Nat.le_add_left 8 rest.length) ?_
  rw [batteryRecord, rdI16_mkframeSync (p := payload) (o := 0) rfl,
    rdI16_mkframeSync (p := payload) (o := 2) rfl, rdU24_mkframeSync (p := payload) (o := 4) rfl,
    rdU8_mkframeSync (p := payload) (o := 7) rfl]
  rfl

/-- Settles O39: one read. -/
theorem baroAltFrameResult : Obligations.BaroAltFrameResult := by
  refine fun s sync => ⟨?_, fun payload => runDecoded_of_short (row := .baroAlt)⟩
  intro p0 p1 p2 p3 rest payload
  refine runDecoded_of_long (row := .baroAlt) (Nat.le_add_left 4 rest.length) ?_
  rw [baroAltRecord, rdI32_mkframeSync (p := payload) (o := 0) rfl]
  rfl

/-- A payload is shorter than LINKSTATS requires exactly when it misses one of the four offsets
(R44, decision D8). -/
theorem length_lt_requiredLen_linkStats_iff (c : Config) (p : List Byte) :
    p.length < requiredLen c .linkStats ↔ ∃ o ∈ c.lsOffsets, p.length ≤ o := by
  simp only [requiredLen, Config.lsOffsets, List.mem_cons, List.not_mem_nil, or_false,
    exists_eq_or_imp, exists_eq_left]
  omega

/-- Settles O40: four one-byte reads, each at its offset parameter. -/
theorem linkStatsFrameResult : Obligations.LinkStatsFrameResult := by
  refine fun s sync payload => ⟨fun b1 b2 q n h1 h2 hq hn => ?_, fun hmissed =>
    runDecoded_of_short (row := .linkStats) ((length_lt_requiredLen_linkStats_iff _ _).2 hmissed)⟩
  have hreached : requiredLen s.cfg .linkStats ≤ payload.length := by
    have hlt {o : Nat} {a : Byte} (h : payload[o]? = some a) : o < payload.length :=
      (List.getElem?_eq_some_iff.1 h).1
    rw [← Nat.not_lt, length_lt_requiredLen_linkStats_iff]
    simp [Config.lsOffsets, hlt h1, hlt h2, hlt hq, hlt hn]
  obtain ⟨_, h1⟩ := exists_drop_eq_cons h1
  obtain ⟨_, h2⟩ := exists_drop_eq_cons h2
  obtain ⟨_, hq⟩ := exists_drop_eq_cons hq
  obtain ⟨_, hn⟩ := exists_drop_eq_cons hn
  refine runDecoded_of_long (row := .linkStats) hreached ?_
  rw [linkStatsRecord, rdI8_mkframeSync h1, rdI8_mkframeSync h2, rdU8_mkframeSync hq,
    rdI8_mkframeSync hn]
  rfl

/-- Settles O41: three reads at the offsets of the ATTITUDE layout. -/
theorem attitudeFrameResult : Obligations.AttitudeFrameResult := by
  refine fun s sync => ⟨?_, fun payload => runDecoded_of_short (row := .attitude)⟩
  intro p0 p1 p2 p3 p4 p5 rest payload
  refine runDecoded_of_long (row := .attitude) (Nat.le_add_left 6 rest.length) ?_
  rw [attitudeRecord, rdI16_mkframeSync (p := payload) (o := 0) rfl,
    rdI16_mkframeSync (p := payload) (o := 2) rfl, rdI16_mkframeSync (p := payload) (o := 4) rfl]
  rfl

/-! ## The undecoded types -/

/-- Settles O42: the nine rows share one meaning, at nine tags. -/
theorem undecodedTypesReportUnknownType : Obligations.UndecodedTypesReportUnknownType := by
  intro s sync payload
  have reported := fun tag => runUndecoded_match sync tag payload s
  exact ⟨reported _, reported _, reported _, reported _, reported _, reported _, reported _,
    reported _, reported⟩

end Sys2Proof.Machine

end

/-! # Proofs for 60_exceptions.md: the order of the tests that decide a frame's event -/

section

namespace Sys2Proof.Machine

/-- VALIDATE by byte positions: the sum of the bytes `F[2 .. |F|-1)` is the byte `F[|F|-1]`
(R65). -/
theorem validate_iff_crc8_take (F : List Byte) :
    validate F = true ↔
      crc8 ((F.drop 2).take (F.length - 3)) = F.getD (F.length - 1) 0 := by
  have hrange : coveredRange F = (F.drop 2).take (F.length - 3) := by
    rw [coveredRange, List.dropLast_eq_take, List.length_drop, Nat.sub_sub]
  have hlast : F.getLastD 0 = F.getD (F.length - 1) 0 := by
    rw [List.getLastD_eq_getLast?, List.getLast?_eq_getElem?, List.getD_eq_getElem?_getD]
  rw [validate, beq_iff_eq, hrange, hlast]

/-- The event of a frame whose checksum does not match (R64, R86). -/
theorem processEvent_of_mismatch {F : List Byte} (h : validate F = false) (c : Config) :
    processEvent c F = .checksumError F :=
  validatedEvent_of_mismatch h _

/-- The event of a frame whose checksum matches is the event of DECODE at its type byte (R64). -/
theorem processEvent_of_match {F : List Byte} (h : validate F = true) (c : Config) :
    processEvent c F = decodeEvent c (F.getD 2 0) F :=
  validatedEvent_of_match h _

/-- A decoded type whose payload passes the truncation check gives a record of its layout, every
value within its field (R70, R73). -/
theorem exists_sound_decodedRecord {c : Config} {t : Byte} {F : List Byte} (ht : t ∈ c.tags)
    (hlong : requiredLenOfTag c t ≤ plen F) :
    ∃ r, decodeEvent c t F = .decodedRecord t r ∧ r.Sound c t := by
  obtain ⟨record, hrecord, hevent⟩ := exists_decodeEvent_eq_decodedEvent ht F
  cases record with
  | none => exact absurd hrecord (Nat.not_lt.2 hlong)
  | some r => exact ⟨r, hevent.trans (decodedEvent_of_long hlong r t), hrecord⟩

/-- Settles O45: the verdict comes first, and after a match the tests are those of DECODE on the
slice (`decodeIsDefinedOnBareSlices`). -/
theorem processTestsInOrder : Obligations.ProcessTestsInOrder := by
  intro c F _
  obtain ⟨hunknown, hshort, -⟩ := decodeIsDefinedOnBareSlices c (F.getD 2 0) F
  rw [← validate_iff_crc8_take, Ne, ← validate_iff_crc8_take, Bool.not_eq_true]
  refine ⟨(processEvent_of_mismatch · c), fun hmatch => ?_⟩
  rw [processEvent_of_match hmatch]
  exact ⟨hunknown, hshort, exists_sound_decodedRecord⟩

end Sys2Proof.Machine

end

/-! # Proofs for 70_reset_and_hazards.md: RESET and the moves of the environment, chunk boundaries
with and without a discard, and the byte-serial realisation -/

section

namespace Sys2Proof.Machine

/-! ## RESET and the moves of the environment -/

theorem exec_next_input {i : Instr} {s t : State} (h : exec i s = .next t) :
    t.input = s.input := by
  rw [exec_eq] at h
  cases h
  rfl

/-- A step that takes a move is the end of a pass with nothing pending (R98, R101). -/
theorem between_feeds_of_step_takes_input {s t : State} (h : step s = .next t)
    (hin : t.input ≠ s.input) :
    s.control = .accumulating ∧ s.events = [] ∧ Quiescent s.cfg s.buf := by
  rcases step_cases h with ⟨hc, rfl⟩ | ⟨-, rfl⟩ | ⟨-, i, -, hi⟩
  · rcases accumulate_cases s with ⟨hq, ha⟩ | ⟨-, ha⟩ | ⟨e, -, ha⟩ <;> rw [ha] at hin
    · rcases endPass_cases s with
        ⟨he, -, -⟩ | ⟨-, -, he, -, -⟩ | ⟨-, he, -, -⟩ | ⟨-, hp⟩
      iterate 3 exact ⟨hc, he, hq⟩
      · rw [hp] at hin
        exact absurd (State.handOver_input s) hin
    · exact absurd rfl hin
    · exact absurd (State.capture_input s e) hin
  · exact absurd (State.discard_input s) hin
  · exact absurd (exec_next_input hi) hin

/-- Between FEEDs the move RESET writes the buffer and the position; the other fields that it sets
have their reset values already (R98). -/
theorem step_reset_of_idle {s : State} {rest : List Input} (h : s.Idle)
    (hin : s.input = .reset :: rest) :
    step s = .next { s with buf := [], pos := 0, input := rest } := by
  obtain ⟨hc, hf, he, hq⟩ := h
  rw [step_quiescent hc hq, State.endPass, if_pos he, State.acceptInput, hin]
  simp only [State.doReset, hc, hf, he]

/-- Settles O2: RESET's own move, the one place where a move is taken, and the discard, which writes
what RESET writes but for the position and the event. -/
theorem resetMoveEmptiesBufferKeepsParameters :
    Obligations.ResetMoveEmptiesBufferKeepsParameters :=
  ⟨fun _ _ => step_reset_of_idle, fun _ _ => between_feeds_of_step_takes_input,
    fun _ => step_desync⟩

/-! ## A FEED in two parts

What the first part leaves in the buffer decides: frames taken from the front are taken in the same
way when more bytes follow, and so is an illegal header. -/

/-- A drain that begins at legal frames raises their events and drains what is behind them. -/
theorem drainAll_frames_append {c : Config} {Fs : List (List Byte)}
    (h : ∀ F ∈ Fs, LegalFrame c F) (rest : List Byte) (n : Nat) :
    drainAll c ⟨Fs.flatten ++ rest, n, []⟩ =
      (drainAll c ⟨rest, n + Fs.flatten.length, []⟩).raisedBefore (Fs.map (processEvent c)) := by
  induction Fs generalizing n with
  | nil => rfl
  | cons F Fs ih =>
    obtain ⟨hF, hFs⟩ := List.forall_mem_cons.1 h
    rw [List.flatten_cons, List.append_assoc, drainAll_legalFrame_append hF, ih hFs]
    simp [Pass.raisedBefore, Nat.add_assoc]

/-- A FEED whose first bytes complete the frames `Fs` and leave `tail` raises the events of the
frames and goes on from `tail`. -/
theorem feed_append_of_frames {s : State} {a tail : List Byte} {Fs : List (List Byte)}
    (hbuf : s.buf ++ a = Fs.flatten ++ tail) (hFs : ∀ F ∈ Fs, LegalFrame s.cfg F)
    (b : List Byte) :
    s.feed (a ++ b) =
      ((State.feed { s with buf := tail, pos := s.pos + Fs.flatten.length } b).1,
        Fs.map (processEvent s.cfg) ++
          (State.feed { s with buf := tail, pos := s.pos + Fs.flatten.length } b).2) := by
  simp only [State.feed, ← List.append_assoc, hbuf]
  rw [List.append_assoc, drainAll_frames_append hFs]
  rfl

/-- Bytes behind an illegal header leave it illegal (R59). -/
theorem boundary_desync_append {c : Config} {buf : List Byte} (h : boundary c buf = .desync)
    (rest : List Byte) : boundary c (buf ++ rest) = .desync := by
  obtain ⟨htwo, hillegal⟩ := (boundary_eq_desync c buf).1 h
  rw [boundary_eq_desync, List.getD_append _ _ _ _ htwo, List.length_append]
  exact ⟨by omega, hillegal⟩

/-- An illegal header at the front: all of buffer and chunk is discarded (R59). -/
theorem feed_of_desync {s : State} {chunk : List Byte}
    (h : boundary s.cfg (s.buf ++ chunk) = .desync) :
    s.feed chunk =
      ({ s with buf := [], pos := s.pos + (s.buf ++ chunk).length },
        [.desyncDiscard (s.buf ++ chunk).length]) := by
  rw [State.feed, drainAll_of_desync h]
  rfl

/-- Buffer and chunk are one legal frame: its event alone is raised (R61). -/
theorem feed_of_legalFrame {s : State} {chunk : List Byte}
    (h : LegalFrame s.cfg (s.buf ++ chunk)) :
    s.feed chunk =
      ({ s with buf := [], pos := s.pos + (s.buf ++ chunk).length },
        [processEvent s.cfg (s.buf ++ chunk)]) := by
  rw [State.feed, drainAll_of_extract h, drainAll_of_quiescent (.inl (by simp [Pass.extracted]))]
  rw [Pass.extracted, List.take_length, List.drop_length]
  rfl

/-- A chunk that leaves the buffer quiescent is appended (R58, R60). -/
theorem feed_of_quiescent {s : State} {chunk : List Byte}
    (h : Quiescent s.cfg (s.buf ++ chunk)) :
    s.feed chunk = ({ s with buf := s.buf ++ chunk }, []) := by
  rw [State.feed, drainAll_of_quiescent h]

/-- The FEED raises no DesyncDiscard. -/
def State.FeedsClean (s : State) (chunk : List Byte) : Prop :=
  ∀ e ∈ (s.feed chunk).2, e.isDesync = false

/-- A FEED without a discard may be cut off behind any of its bytes. -/
theorem feed_append_of_feedsClean {s : State} {a : List Byte} (h : s.FeedsClean a)
    (b : List Byte) :
    s.feed (a ++ b) =
      (((s.feed a).1.feed b).1, (s.feed a).2 ++ ((s.feed a).1.feed b).2) := by
  obtain ⟨Fs, tail, hbuf, hFs, ⟨-, hfeed⟩ | ⟨-, hfeed⟩⟩ := feed_cases s a
  · rw [hfeed, feed_append_of_frames hbuf hFs]
  · have hdiscard : Event.isDesync (.desyncDiscard tail.length) = false :=
      h _ (by rw [hfeed]; exact List.mem_append_right _ (List.mem_singleton_self _))
    cases hdiscard

/-- More bytes do not undo a discard: they are discarded too (R59). -/
theorem State.FeedsClean.of_append {s : State} {a b : List Byte} (h : s.FeedsClean (a ++ b)) :
    s.FeedsClean a := by
  obtain ⟨Fs, tail, hbuf, hFs, ⟨-, hfeed⟩ | ⟨hdesync, -⟩⟩ := feed_cases s a
  · rw [State.FeedsClean, hfeed]
    exact isDesync_of_mem_map_processEvent
  · have hrest := feed_of_desync (s := { s with buf := tail, pos := s.pos + Fs.flatten.length })
      (boundary_desync_append hdesync b)
    have hfeed := feed_append_of_frames hbuf hFs b
    rw [hrest] at hfeed
    have hdiscard : Event.isDesync (.desyncDiscard (tail ++ b).length) = false :=
      h _ (by rw [hfeed]; exact List.mem_append_right _ (List.mem_singleton_self _))
    cases hdiscard

/-- After the first part of a FEED without a discard, the second part raises none. -/
theorem State.FeedsClean.after_append {s : State} {a b : List Byte}
    (h : s.FeedsClean (a ++ b)) : (s.feed a).1.FeedsClean b := by
  intro e he
  refine h e ?_
  rw [feed_append_of_feedsClean h.of_append]
  exact List.mem_append_right _ he

/-! ## Chunk boundaries -/

theorem feedAll_cons (s : State) (chunk : List Byte) (chunks : List (List Byte)) :
    s.feedAll (chunk :: chunks) =
      (((s.feed chunk).1.feedAll chunks).1,
        (s.feed chunk).2 ++ ((s.feed chunk).1.feedAll chunks).2) := rfl

theorem feed_quiescent (s : State) (chunk : List Byte) :
    Quiescent s.cfg (s.feed chunk).1.buf :=
  (feedLeavesAQuiescentBuffer s chunk).1

/-- Settles O32, by induction over the chunks: each cut of a FEED without a discard is one of
`feed_append_of_feedsClean`. -/
theorem chunkBoundariesInvisibleWithoutDesync :
    Obligations.ChunkBoundariesInvisibleWithoutDesync := by
  intro s chunks hq (hclean : s.FeedsClean chunks.flatten)
  induction chunks generalizing s with
  | nil => exact (feed_nil_of_quiescent hq).symm
  | cons chunk chunks ih =>
    rw [List.flatten_cons] at hclean ⊢
    rw [feedAll_cons, ih _ (feed_quiescent s chunk) hclean.after_append,
      feed_append_of_feedsClean hclean.of_append]

/-- Settles O33: in one chunk the illegal header takes the Vario frame with it; fed apart, it takes
two bytes, and the frame comes to an empty buffer. -/
theorem chunkBoundariesVisibleWithDesync : Obligations.ChunkBoundariesVisibleWithDesync := by
  have hbad : State.reset.feed [0x55, 0x00] =
      ({ State.reset with pos := 2 }, [.desyncDiscard 2]) := feed_of_desync (by decide)
  have hmatch : validate [0xC8, 0x04, 0x07, 0xFF, 0xE7, 0xD9] = true := by decide +kernel
  have hgood : processEvent Config.reference [0xC8, 0x04, 0x07, 0xFF, 0xE7, 0xD9] =
      .decodedRecord 0x07 (.vario ⟨-25, 10⟩) := by
    rw [processEvent, validatedEvent_of_match hmatch]
    decide
  refine ⟨congrArg Prod.snd (feed_of_desync (by decide)), ?_⟩
  rw [feedAll_cons, hbad, feedAll_cons, feed_of_legalFrame (by decide)]
  exact congrArg (fun e => [.desyncDiscard 2, e]) hgood

/-! ## One byte at a time -/

/-- A quiescent buffer and one more byte: quiescent again, one whole frame, or an illegal header,
which is found at its second byte (R103). -/
theorem quiescent_concat_cases {c : Config} {buf : List Byte} (h : Quiescent c buf) (b : Byte) :
    Quiescent c (buf ++ [b]) ∨ LegalFrame c (buf ++ [b]) ∨
      (boundary c (buf ++ [b]) = .desync ∧ (buf ++ [b]).length = 2) := by
  have hlen : (buf ++ [b]).length = buf.length + 1 := List.length_append
  have hheader (htwo : 2 ≤ buf.length) : (buf ++ [b]).getD 1 0 = buf.getD 1 0 :=
    List.getD_append _ _ _ _ htwo
  cases hb : boundary c (buf ++ [b]) with
  | needHeader => exact .inl ((quiescent_iff _ _).2 (.inl hb))
  | needBody => exact .inl ((quiescent_iff _ _).2 (.inr hb))
  | desync =>
    obtain ⟨htwo, hillegal⟩ := (boundary_eq_desync _ _).1 hb
    rcases h with hshort | ⟨hlegal, -⟩
    · exact .inr (.inr ⟨rfl, by omega⟩)
    · by_cases hcount : 2 ≤ buf.length
      · rw [hheader hcount, hlegal] at hillegal
        cases hillegal
      · exact .inr (.inr ⟨rfl, by omega⟩)
  | extract e =>
    obtain ⟨hfour, hle, -⟩ := boundary_extract_size hb
    obtain ⟨-, -, -, he⟩ := (boundary_eq_extract _ _ _).1 hb
    rcases h with hshort | ⟨-, hmissing⟩
    · omega
    · rw [hheader (by omega)] at he
      have hall : e = (buf ++ [b]).length := by omega
      exact .inr (.inl (hb.trans (congrArg _ hall)))

/-- What one byte does to a quiescent block (R103): it raises no DesyncDiscard, or it completes an
illegal header and two bytes are discarded. -/
theorem feed_singleton_cases {s : State} (hq : Quiescent s.cfg s.buf) (b : Byte) :
    s.FeedsClean [b] ∨
      (boundary s.cfg (s.buf ++ [b]) = .desync ∧ (s.buf ++ [b]).length = 2) := by
  rcases quiescent_concat_cases hq b with hkept | hframe | hdesync
  · exact .inl (by simp [State.FeedsClean, feed_of_quiescent hkept])
  · exact .inl (by simp [State.FeedsClean, feed_of_legalFrame hframe, processEvent_isDesync])
  · exact .inr hdesync

theorem desyncDiscard_mem_feed_singleton {s : State} {b : Byte} {n : Nat}
    (hq : Quiescent s.cfg s.buf) (h : .desyncDiscard n ∈ (s.feed [b]).2) : n = 2 := by
  rcases feed_singleton_cases hq b with hclean | ⟨hdesync, htwo⟩
  · cases hclean _ h
  · rw [feed_of_desync hdesync, List.mem_singleton, htwo] at h
    exact Event.desyncDiscard.inj h

/-- Settles O34, by induction over the bytes: every byte is fed to a quiescent block. -/
theorem oneByteChunksDiscardTwoBytes : Obligations.OneByteChunksDiscardTwoBytes := by
  intro s bytes n hq h
  induction bytes generalizing s with
  | nil => cases h
  | cons b bytes ih =>
    rw [List.map_cons, feedAll_cons] at h
    rcases List.mem_append.1 h with hhere | hlater
    · exact desyncDiscard_mem_feed_singleton hq hhere
    · exact ih _ (feed_quiescent s [b]) hlater

/-! ## The byte-serial realisation: one beat -/

theorem Serial.run_cons (c : Config) (u : Serial) (b : Beat) (beats : List Beat) :
    u.run c (b :: beats) =
      (((u.beat c b).1.run c beats).1, (u.beat c b).2 ++ ((u.beat c b).1.run c beats).2) := rfl

theorem Serial.run_append (c : Config) (u : Serial) (xs ys : List Beat) :
    u.run c (xs ++ ys) =
      (((u.run c xs).1.run c ys).1, (u.run c xs).2 ++ ((u.run c xs).1.run c ys).2) := by
  induction xs generalizing u with
  | nil => rfl
  | cons b xs ih => rw [List.cons_append, run_cons, ih, run_cons, List.append_assoc]

/-- The first beat of a chunk is the last one when no byte follows. -/
theorem Beat.ofChunk_cons (b : Byte) (rest : List Byte) :
    Beat.ofChunk (b :: rest) = ⟨b, rest.isEmpty⟩ :: Beat.ofChunk rest := by
  cases rest <;> rfl

/-- `n <- 0` leaves the realisation at an empty buffer. -/
theorem Serial.clear_tracks {u : Serial} (h : u.flushing = false) : u.clear.Tracks [] :=
  ⟨h, rfl, rfl⟩

/-- The running checksum starts at the third byte of the register (D2, R51 (f)). -/
theorem Serial.Tracks.crc_concat {u : Serial} {buf : List Byte} (h : u.Tracks buf) (b : Byte) :
    (if u.reg.length < 2 then u.crc else crcByte u.crc b) =
      crcFrom crcSeed ((buf ++ [b]).drop 2) := by
  obtain ⟨-, rfl, hcrc⟩ := h
  rw [hcrc]
  by_cases hshort : u.reg.length < 2
  · rw [if_pos hshort, List.drop_of_length_le (by omega), List.drop_of_length_le (by simp; omega)]
  · rw [if_neg hshort, List.drop_append_of_le_length (by omega), crcFrom_append]
    rfl

/-- The verdict from the residue is the verdict of VALIDATE (R51 (c), R65). -/
theorem Serial.processed_eq_processEvent {F : List Byte} (h : 2 < F.length) (c : Config) :
    Serial.processed c (crcFrom crcSeed (F.drop 2)) F = processEvent c F := by
  have hresidue : validate F = true ↔ crcFrom crcSeed (F.drop 2) = 0 := validate_iff_residue h
  simp only [Serial.processed, processEvent, validatedEvent, hresidue]

section Beats

variable {c : Config} {u : Serial} {buf : List Byte} {b : Byte}

/-- A beat outside flushing appends its byte, then tests the register: an illegal header, a whole
frame, neither. -/
theorem Serial.Tracks.beat_eq (h : u.Tracks buf) (last : Bool) :
    u.beat c ⟨b, last⟩ =
      if (buf ++ [b]).length = 2 ∧ legalSize c (expectedLen ((buf ++ [b]).getD 1 0)) = false then
        if last then (u.clear, [.desyncDiscard 2])
        else ({ u.clear with flushing := true, dropped := 2 }, [])
      else if 2 ≤ (buf ++ [b]).length ∧
          (buf ++ [b]).length = expectedLen ((buf ++ [b]).getD 1 0) then
        (u.clear, [Serial.processed c (crcFrom crcSeed ((buf ++ [b]).drop 2)) (buf ++ [b])])
      else ({ u with reg := buf ++ [b], crc := crcFrom crcSeed ((buf ++ [b]).drop 2) }, []) := by
  have hcrc := h.crc_concat b
  obtain ⟨hflush, rfl, -⟩ := h
  simp only [Serial.beat, hflush, hcrc, Bool.false_eq_true, if_false]

theorem Serial.Tracks.beat_of_quiescent (h : u.Tracks buf) (hq : Quiescent c (buf ++ [b]))
    (last : Bool) :
    u.beat c ⟨b, last⟩ =
      ({ u with reg := buf ++ [b], crc := crcFrom crcSeed ((buf ++ [b]).drop 2) }, []) := by
  rw [h.beat_eq, if_neg, if_neg]
  · rintro ⟨htwo, hwhole⟩
    rcases hq with hshort | ⟨-, hmissing⟩ <;> omega
  · rintro ⟨htwo, hillegal⟩
    rcases hq with hshort | ⟨hlegal, -⟩
    · omega
    · rw [hlegal] at hillegal
      cases hillegal

theorem Serial.Tracks.beat_of_legalFrame (h : u.Tracks buf) (hF : LegalFrame c (buf ++ [b]))
    (last : Bool) : u.beat c ⟨b, last⟩ = (u.clear, [processEvent c (buf ++ [b])]) := by
  obtain ⟨hfour, -⟩ := boundary_extract_size hF
  obtain ⟨htwo, -, -, hwhole⟩ := (boundary_eq_extract _ _ _).1 hF
  rw [h.beat_eq, if_neg (by omega), if_pos ⟨htwo, hwhole⟩,
    Serial.processed_eq_processEvent (by omega)]

theorem Serial.Tracks.beat_of_desync (h : u.Tracks buf)
    (hd : boundary c (buf ++ [b]) = .desync) (htwo : (buf ++ [b]).length = 2) (last : Bool) :
    u.beat c ⟨b, last⟩ =
      if last then (u.clear, [.desyncDiscard 2])
      else ({ u.clear with flushing := true, dropped := 2 }, []) := by
  obtain ⟨-, hillegal⟩ := (boundary_eq_desync _ _).1 hd
  rw [h.beat_eq, if_pos ⟨htwo, hillegal⟩]

end Beats

/-! ## The byte-serial realisation: a chunk -/

/-- The realisation `u` and the block `t` after what each has answered: the same events, and `u`
holds the buffer of `t`, which is quiescent. -/
def Serial.Follows (u : Serial × List Event) (t : State × List Event) : Prop :=
  u.2 = t.2 ∧ u.1.Tracks t.1.buf ∧ Quiescent t.1.cfg t.1.buf

/-- A beat whose FEED raises no DesyncDiscard does what the FEED does, whether it is the last of its
chunk or not. -/
theorem beat_follows_feed {t : State} {u : Serial} {b : Byte} (hq : Quiescent t.cfg t.buf)
    (hu : u.Tracks t.buf) (hclean : t.FeedsClean [b]) (last : Bool) :
    Serial.Follows (u.beat t.cfg ⟨b, last⟩) (t.feed [b]) := by
  rcases quiescent_concat_cases hq b with hkept | hframe | ⟨hdesync, -⟩
  · rw [hu.beat_of_quiescent hkept, feed_of_quiescent hkept]
    exact ⟨rfl, ⟨hu.1, rfl, rfl⟩, hkept⟩
  · rw [hu.beat_of_legalFrame hframe, feed_of_legalFrame hframe]
    exact ⟨rfl, Serial.clear_tracks hu.1, .inl Nat.zero_lt_two⟩
  · rw [State.FeedsClean, feed_of_desync hdesync] at hclean
    cases hclean _ (List.mem_singleton_self _)

/-- Flushing: the rest of the chunk is counted, and its last beat reports the count (D2, R59). -/
theorem Serial.run_flushing {c : Config} {u : Serial} (hf : u.flushing = true) {rest : List Byte}
    (hrest : rest ≠ []) :
    u.run c (Beat.ofChunk rest) =
      ({ u.clear with flushing := false, dropped := u.dropped + rest.length },
        [.desyncDiscard (u.dropped + rest.length)]) := by
  induction rest generalizing u with
  | nil => exact absurd rfl hrest
  | cons b rest ih =>
    rw [Beat.ofChunk_cons, run_cons]
    cases rest with
    | nil => simp [Serial.beat, Serial.run, Beat.ofChunk, hf]
    | cons b' rest =>
      have hbeat : u.beat c ⟨b, false⟩ = ({ u with dropped := u.dropped + 1 }, []) := by
        simp [Serial.beat, hf]
      have hlater := ih (u := { u with dropped := u.dropped + 1 }) hf (List.cons_ne_nil b' rest)
      rw [List.isEmpty_cons, hbeat, hlater]
      simp [Serial.clear, Nat.add_assoc, Nat.add_comm]

/-- A chunk whose first byte completes an illegal header: the two bytes and the rest of the chunk
are one discard on both sides. -/
theorem run_follows_feed_of_desync {t : State} {u : Serial} {b : Byte} (hu : u.Tracks t.buf)
    (hd : boundary t.cfg (t.buf ++ [b]) = .desync) (htwo : (t.buf ++ [b]).length = 2)
    (rest : List Byte) :
    Serial.Follows (u.run t.cfg (Beat.ofChunk (b :: rest))) (t.feed (b :: rest)) := by
  have hsplit : t.buf ++ b :: rest = (t.buf ++ [b]) ++ rest := List.append_cons _ _ _
  have hfeed := feed_of_desync (hsplit ▸ boundary_desync_append hd rest)
  rw [hsplit, List.length_append, htwo] at hfeed
  rw [hfeed, Beat.ofChunk_cons, Serial.run_cons, hu.beat_of_desync hd htwo]
  cases rest with
  | nil => exact ⟨rfl, Serial.clear_tracks hu.1, .inl Nat.zero_lt_two⟩
  | cons b' rest =>
    rw [List.isEmpty_cons, if_neg Bool.false_ne_true,
      Serial.run_flushing rfl (List.cons_ne_nil b' rest)]
    exact ⟨rfl, ⟨rfl, rfl, rfl⟩, .inl Nat.zero_lt_two⟩

/-- The beats of a chunk do what FEED does, by induction over the chunk: a byte without a discard is
a FEED of its own, and a discard takes the rest of the chunk. -/
theorem run_follows_feed {t : State} {u : Serial} (hq : Quiescent t.cfg t.buf)
    (hu : u.Tracks t.buf) (chunk : List Byte) :
    Serial.Follows (u.run t.cfg (Beat.ofChunk chunk)) (t.feed chunk) := by
  induction chunk generalizing t u with
  | nil =>
    rw [feed_nil_of_quiescent hq]
    exact ⟨rfl, hu, hq⟩
  | cons b rest ih =>
    rcases feed_singleton_cases hq b with hclean | ⟨hdesync, htwo⟩
    · obtain ⟨hhere, hu', hq'⟩ := beat_follows_feed hq hu hclean rest.isEmpty
      obtain ⟨hlater, hu'', hq''⟩ := ih hq' hu'
      rw [Beat.ofChunk_cons, Serial.run_cons, ← List.singleton_append,
        feed_append_of_feedsClean hclean]
      exact ⟨congrArg₂ _ hhere hlater, hu'', hq''⟩
    · exact run_follows_feed_of_desync hu hdesync htwo rest

theorem reset_tracks_nil : Serial.reset.Tracks [] := ⟨rfl, rfl, rfl⟩

/-- Settles O54: the simulation of FEED by the beats of its chunk. -/
theorem serialBeatsOfAChunkImplementFeed : Obligations.SerialBeatsOfAChunkImplementFeed :=
  ⟨reset_tracks_nil, fun _ _ chunk hq hu => run_follows_feed hq hu chunk⟩

/-! ## The byte-serial realisation: a run of chunks -/

theorem run_follows_feedAll {t : State} {u : Serial} (hq : Quiescent t.cfg t.buf)
    (hu : u.Tracks t.buf) (chunks : List (List Byte)) :
    Serial.Follows (u.run t.cfg (chunks.flatMap Beat.ofChunk)) (t.feedAll chunks) := by
  induction chunks generalizing t u with
  | nil => exact ⟨rfl, hu, hq⟩
  | cons chunk chunks ih =>
    obtain ⟨hhere, hu', hq'⟩ := run_follows_feed hq hu chunk
    obtain ⟨hlater, hu'', hq''⟩ := ih hq' hu'
    rw [List.flatMap_cons, Serial.run_append, feedAll_cons]
    exact ⟨congrArg₂ _ hhere hlater, hu'', hq''⟩

theorem feedAll_cfg (s : State) (chunks : List (List Byte)) : (s.feedAll chunks).1.cfg = s.cfg := by
  induction chunks generalizing s with
  | nil => rfl
  | cons chunk chunks ih => exact ih (s.feed chunk).1

/-- Settles O53: the chunks one after another, from reset, where both are empty. -/
theorem serialRealisationRefinesFeed : Obligations.SerialRealisationRefinesFeed := by
  intro c chunks hc
  obtain ⟨hevents, ⟨hflush, hreg, -⟩, hq⟩ :=
    run_follows_feedAll (t := { State.reset with cfg := c }) (.inl Nat.zero_lt_two)
      reset_tracks_nil chunks
  rw [feedAll_cfg] at hq
  exact ⟨hevents, hreg, hflush, hreg ▸ length_lt_maxFrameSize_of_quiescent hc hq⟩

end Sys2Proof.Machine

end
